-- ==== Sys2Proof/Word.lean ====
section
/-! DEFINITION. The two word types of the LS8 CORE (spec 00_scope.md R5, R7). -/

namespace Sys2Proof

/-- A register, a memory cell, an operand byte: unsigned, 8 bits (R5 `XLEN`). -/
abbrev Byte := BitVec 8

/-- A program counter value or the information of a stop: unsigned, 9 bits (R5 `PC_WIDTH`, R29). -/
abbrev PcWord := BitVec 9

end Sys2Proof
end

