-- ==== Sys2Proof/Config.lean ====
section
/-! DEFINITION. The implementation parameters of spec 00_scope.md R5, and the texts the spec leaves open. -/

namespace Sys2Proof.Config

/-- `MEM_SIZE`: 256 bytes, addresses 0 to 255. -/
abbrev memSize : Nat := 256

/-- `NREG`: eight general registers. -/
abbrev numRegs : Nat := 8

/-- `SP_RESET`: the sentinel 0xF4. -/
def spReset : Byte := 0xF4

/-- `FLAGS_RESET`, default 0x00 (decision D4 of the spec, log entry 5).
`State.resetWith` takes any other value. -/
def flagsReset : Byte := 0x00

/-- `DIAG_TEXT`, the text of the ADD and MUL marker: OPEN in the spec (R5, D12), so it has no body (log entry 6). -/
opaque diagText : String

/-- The text of the unknown-opcode report, which the spec does not give (N11): no body (log entry 6). -/
opaque unknownText : Byte → String

end Sys2Proof.Config
end

