-- ==== Sys2Proof/Syntax.lean ====
section
/-! DEFINITION. The closed set of thirteen instructions (spec 30_encoding.md R84), their opcodes' names and their
assembler text (R91). -/

namespace Sys2Proof

/-- The thirteen opcodes, one for each row of R84. -/
inductive Opcode where
  | ldi | prn | hlt | add | mul | push | pop | call | ret | cmp | jmp | jeq | jne
  deriving DecidableEq, Repr

/-- An instruction with its operand bytes as they stand in memory (R85).
A register operand is the WHOLE byte, 0 to 255, with no bit masked (R86): an index of 8 or more is no decoding error,
it is checked when the instruction executes (40_dispatch.md R107). -/
inductive Instr where
  | ldi (regA imm : Byte)
  | prn (regA : Byte)
  | hlt
  | add (regA regB : Byte)
  | mul (regA regB : Byte)
  | push (regA : Byte)
  | pop (regA : Byte)
  | call (regA : Byte)
  | ret
  | cmp (regA regB : Byte)
  | jmp (regA : Byte)
  | jeq (regA : Byte)
  | jne (regA : Byte)
  deriving DecidableEq, Repr

/-- Every opcode, in the order of spec/opcode_table.json. -/
def Opcode.all : List Opcode :=
  [.ldi, .prn, .hlt, .add, .mul, .push, .pop, .call, .ret, .cmp, .jmp, .jeq, .jne]

/-- The opcode of an instruction. -/
def Instr.opcode : Instr → Opcode
  | .ldi _ _ => .ldi
  | .prn _ => .prn
  | .hlt => .hlt
  | .add _ _ => .add
  | .mul _ _ => .mul
  | .push _ => .push
  | .pop _ => .pop
  | .call _ => .call
  | .ret => .ret
  | .cmp _ _ => .cmp
  | .jmp _ => .jmp
  | .jeq _ => .jeq
  | .jne _ => .jne

/-- The register operand bytes of an instruction, in the order R107 checks them. -/
def Instr.regOperands : Instr → List Byte
  | .ldi a _ => [a]
  | .prn a | .push a | .pop a | .call a | .jmp a | .jeq a | .jne a => [a]
  | .add a b | .mul a b | .cmp a b => [a, b]
  | .hlt | .ret => []

/-- The mnemonic, as the opcode table spells it. -/
def Opcode.mnemonic : Opcode → String
  | .ldi => "LDI" | .prn => "PRN" | .hlt => "HLT" | .add => "ADD" | .mul => "MUL"
  | .push => "PUSH" | .pop => "POP" | .call => "CALL" | .ret => "RET" | .cmp => "CMP"
  | .jmp => "JMP" | .jeq => "JEQ" | .jne => "JNE"

/-- The name `R0` to `R7` of a register operand byte (R21); an index of 8 or more names no register (R86). -/
def regName (r : Byte) : Option String :=
  if r.toNat < Config.numRegs then some ("R" ++ toString r.toNat) else none

/-- The assembler text of an instruction (R91), with a decimal immediate as in the source's own example. -/
def Instr.asm (i : Instr) : Option String :=
  match i with
  | .hlt | .ret => some i.opcode.mnemonic
  | .prn a | .push a | .pop a | .call a | .jmp a | .jeq a | .jne a =>
    (regName a).map fun ra => i.opcode.mnemonic ++ " " ++ ra
  | .ldi a imm => (regName a).map fun ra => i.opcode.mnemonic ++ " " ++ ra ++ ", " ++ toString imm.toNat
  | .add a b | .mul a b | .cmp a b =>
    (regName a).bind fun ra => (regName b).map fun rb => i.opcode.mnemonic ++ " " ++ ra ++ ", " ++ rb

end Sys2Proof
end

