-- ==== Sys2Proof/WellFormed.lean ====
section
/-! DEFINITION. Which instructions name registers that exist (spec 30_encoding.md R86, R90). -/

namespace Sys2Proof

/-- A register operand byte names one of R0 to R7. -/
def validReg (r : Byte) : Bool := decide (r.toNat < Config.numRegs)

/-- Every register operand names a register; any byte is a legal immediate (R90).
An instruction that is not well formed still decodes and encodes: it raises REGISTER_FAULT when it executes. -/
def Instr.wf (i : Instr) : Bool := i.regOperands.all validReg

end Sys2Proof
end

