-- ==== Sys2Proof/Decode.lean ====
section
/-! DEFINITION. Decoding by exact match of the opcode byte (spec 30_encoding.md R83, R84; 40_dispatch.md R103), and the
encoder written from the same table. -/

namespace Sys2Proof

/-- The opcode byte of each row of R84, most significant bit first as the spec writes it (R6). -/
def Opcode.byte : Opcode → Byte
  | .ldi => 0b10000010
  | .prn => 0b01000111
  | .hlt => 0b00000001
  | .add => 0b10100000
  | .mul => 0b10100010
  | .push => 0b01000101
  | .pop => 0b01000110
  | .call => 0b01010000
  | .ret => 0b00010001
  | .cmp => 0b10100111
  | .jmp => 0b01010100
  | .jeq => 0b01010101
  | .jne => 0b01010110

/-- The operand count of each row of R84: the format is F0, F1R, or one of F2RI and F2RR (R85). -/
def Opcode.operandCount : Opcode → Nat
  | .hlt | .ret => 0
  | .prn | .push | .pop | .call | .jmp | .jeq | .jne => 1
  | .ldi | .add | .mul | .cmp => 2

/-- The length in bytes: 1 plus the operand count (R80). -/
def Opcode.length (o : Opcode) : Nat := 1 + o.operandCount

/-- The length of an instruction in bytes. -/
def Instr.length (i : Instr) : Nat := i.opcode.length

/-- Bits 7:6 of an opcode byte, `AA` of R82: descriptive, the decoder does not use it. -/
def opcodeFieldAA (b : Byte) : Nat := (b.extractLsb' 6 2).toNat

/-- Bit 5 of an opcode byte, `B` of R82 (the ALU class, corrected by 90_conflicts.md C1): descriptive. -/
def opcodeFieldB (b : Byte) : Bool := b.getLsbD 5

/-- Bit 4 of an opcode byte, `C` of R82 (may replace PC): descriptive. -/
def opcodeFieldC (b : Byte) : Bool := b.getLsbD 4

/-- Bits 3:0 of an opcode byte, `DDDD` of R82: no meaning given. -/
def opcodeFieldD (b : Byte) : Nat := (b.extractLsb' 0 4).toNat

/-- The opcode a byte stands for: the byte is compared with all 8 bits of each encoding (R103). -/
def opcodeOf (b : Byte) : Option Opcode := Opcode.all.find? fun o => o.byte == b

/-- Why bytes are no instruction. -/
inductive DecodeError where
  /-- the first byte matches no row of the table (R89) -/
  | unknownOpcode (op : Byte)
  /-- the byte at offset `k` from the opcode is needed and is not there: 0 the opcode itself, 1 or 2 an operand -/
  | missingByte (k : Nat)
  deriving DecidableEq, Repr

/-- What decoding answers: the instruction and the bytes after it. -/
abbrev DecodeResult := Except DecodeError (Instr × List Byte)

/-- Format F1R: one operand byte (R85). -/
def decodeOneOperand (make : Byte → Instr) : List Byte → DecodeResult
  | [] => .error (.missingByte 1)
  | a :: rest => .ok (make a, rest)

/-- Formats F2RI and F2RR: two operand bytes (R85). -/
def decodeTwoOperands (make : Byte → Byte → Instr) : List Byte → DecodeResult
  | [] => .error (.missingByte 1)
  | [_] => .error (.missingByte 2)
  | a :: b :: rest => .ok (make a b, rest)

/-- The operand bytes of a recognised opcode, in memory order (R81). -/
def decodeOperands : Opcode → List Byte → DecodeResult
  | .ldi => decodeTwoOperands .ldi
  | .prn => decodeOneOperand .prn
  | .hlt => fun rest => .ok (.hlt, rest)
  | .add => decodeTwoOperands .add
  | .mul => decodeTwoOperands .mul
  | .push => decodeOneOperand .push
  | .pop => decodeOneOperand .pop
  | .call => decodeOneOperand .call
  | .ret => fun rest => .ok (.ret, rest)
  | .cmp => decodeTwoOperands .cmp
  | .jmp => decodeOneOperand .jmp
  | .jeq => decodeOneOperand .jeq
  | .jne => decodeOneOperand .jne

/-- Decode the instruction at the head of a byte sequence.
An unknown opcode is reported before any operand byte is looked for (R88, R184), and only the operand bytes the
instruction has are needed (R102). -/
def decode : List Byte → DecodeResult
  | [] => .error (.missingByte 0)
  | op :: rest =>
    match opcodeOf op with
    | none => .error (.unknownOpcode op)
    | some o => decodeOperands o rest

/-- The bytes of an instruction at ascending addresses: opcode, first operand, second operand (R81, R85). -/
def encode : Instr → List Byte
  | .ldi a imm => [Opcode.ldi.byte, a, imm]
  | .prn a => [Opcode.prn.byte, a]
  | .hlt => [Opcode.hlt.byte]
  | .add a b => [Opcode.add.byte, a, b]
  | .mul a b => [Opcode.mul.byte, a, b]
  | .push a => [Opcode.push.byte, a]
  | .pop a => [Opcode.pop.byte, a]
  | .call a => [Opcode.call.byte, a]
  | .ret => [Opcode.ret.byte]
  | .cmp a b => [Opcode.cmp.byte, a, b]
  | .jmp a => [Opcode.jmp.byte, a]
  | .jeq a => [Opcode.jeq.byte, a]
  | .jne a => [Opcode.jne.byte, a]

/-- The three bytes, in memory order, of an instruction whose bits are `w`, numbered as spec/opcode_table.json numbers
them (the second byte is bits 15 to 8); every bit from `nbits` on is 0. -/
def tableBytes (nbits w : Nat) : List Byte :=
  let v := w % 2 ^ nbits
  [BitVec.ofNat 8 v, BitVec.ofNat 8 (v / 256), BitVec.ofNat 8 (v / 65536)]

/-- The instruction the decoder reads from such a word. -/
def decodeTableWord (nbits w : Nat) : Option Instr :=
  match decode (tableBytes nbits w) with
  | .ok (i, _) => some i
  | .error _ => none

end Sys2Proof
end

