-- ==== Sys2Proof/Machine/State.lean ====
section
/-! DEFINITION. Every piece of state the spec gives the LS8 CORE (spec 10_state.md), as plain data, and its value after
reset (R34). -/

namespace Sys2Proof.Machine

/-- The index of a general register, R0 to R7 (R20). -/
abbrev RegIdx := Fin 8

/-- Memory as the cells that differ from the unlisted value 0x00, by rising address (20_memory.md R50).
`Memory.wf` states the canonical form. -/
abbrev Memory := List Host.Cell

/-- The run state of R28, with the hold in reset of R42 as a third value. -/
inductive RunState where
  /-- the host asserts reset: the CORE is stopped and the host may load memory (R42) -/
  | held
  /-- RUNNING (R28) -/
  | running
  /-- HALTED, which only a reset leaves (R28) -/
  | halted
  deriving DecidableEq, Repr

/-- An output event (R41). -/
inductive Event where
  /-- PRN of a register value (41_register_output.md R121) -/
  | prn (v : Byte)
  /-- the diagnostic marker of ADD or MUL, with the opcode byte (42_alu.md R131, R132) -/
  | diag (op : Byte)
  /-- the report of an unknown opcode (40_dispatch.md R111) -/
  | unknown (op : Byte)
  deriving DecidableEq, Repr

/-- The names of the stop causes (60_exceptions.md R181). -/
inductive HaltCause where
  | none | hlt | unknownOpcode | addressFault | registerFault | aluUnsupported
  deriving DecidableEq, Repr

/-- The state of the machine. -/
structure State where
  /-- R0 to R7; R7 is SP (R20, R22) -/
  regs : Vector Byte 8
  /-- PC (R24) -/
  pc : PcWord
  /-- FL: bit 0 E, bit 1 G (R26) -/
  fl : Byte
  /-- the run state (R28, R42) -/
  run : RunState
  /-- HCAUSE (R29) -/
  hcause : BitVec 3
  /-- HINFO (R29) -/
  hinfo : BitVec 9
  /-- Memory (R31) -/
  mem : Memory
  /-- the events emitted since reset, oldest first (R41, 70_reset_and_hazards.md R200) -/
  events : List Event
  deriving DecidableEq, Repr

/-- Reasons to stop with a fault: there is none. Every exceptional condition of this hardware has a described stop,
which is a next state with the halt record written (60_exceptions.md R180, R183). -/
inductive Fault where
  deriving DecidableEq, Repr

/-- Reasons to refuse. -/
inductive Refusal where
  /-- raised by `exec` alone, for an instruction with no meaning yet (no arm uses it); safe -/
  | notModelled (mnemonic : String)
  /-- raised by `hostAct` for a load write while the CORE is not held in reset, outside the contract of
  70_reset_and_hazards.md R203 (D17, D19); safe -/
  | loadWhileReleased
  /-- raised by `hostAct` for a release of a CORE that is not held in reset, of which the spec says nothing; safe -/
  | releaseWhileReleased
  /-- raised by `loadImage` for an image over 256 bytes, outside the contract of R203 (D19); safe -/
  | imageTooLong
  deriving DecidableEq, Repr

/-- What a step, a meaning or a host action answers. -/
abbrev Result := Host.Outcome State Fault Refusal

/-- The state after reset and release, with FL at a value of the parameter `FLAGS_RESET` (00_scope.md R5, D4). -/
def State.resetWith (flags : Byte) : State where
  regs := #v[0x00, 0x00, 0x00, 0x00, 0x00, 0x00, 0x00, Config.spReset]
  pc := 0
  fl := flags
  run := .running
  hcause := 0
  hinfo := 0
  mem := []
  events := []

/-- The state after reset (R34, R35), released, before a program is loaded (log entry 1). -/
def State.reset : State := State.resetWith Config.flagsReset

end Sys2Proof.Machine
end

