-- ==== Sys2Proof/Machine/Ops.lean ====
section
/-! DEFINITION. The named operations over the state: registers, PC, output, the memory primitives, and entering a stop.
A check either takes the stop or goes on with what it is given next. -/

namespace Sys2Proof.Machine

/-- Widen a byte to 9 bits with a zero high bit (spec 00_scope.md R7 `zext_9`). -/
def zext9 (b : Byte) : PcWord := b.setWidth 9

/-- The index of the stack pointer (R5 `SP_INDEX`). -/
def spIdx : RegIdx := 7

/-- `x[i]` (R8). -/
def State.reg (s : State) (i : RegIdx) : Byte := s.regs[i.val]

/-- `x[i] <- v` (R8). -/
def State.setReg (s : State) (i : RegIdx) (v : Byte) : State := { s with regs := s.regs.set i.val v }

/-- SP, the same cell as R7 (10_state.md R22). -/
def State.sp (s : State) : Byte := s.reg spIdx

/-- `pc <- target` (R8). -/
def State.setPc (s : State) (p : PcWord) : State := { s with pc := p }

/-- The default advance by an instruction's length, a 9-bit sum (40_dispatch.md R104). -/
def State.advance (s : State) (len : Nat) : State := s.setPc (s.pc + BitVec.ofNat 9 len)

/-- `FL <- v` (R8). -/
def State.setFl (s : State) (v : Byte) : State := { s with fl := v }

/-- Store into memory. -/
def State.setMem (s : State) (m : Memory) : State := { s with mem := m }

/-- Append an event to the output channel (10_state.md R41). -/
def State.emit (s : State) (e : Event) : State := { s with events := s.events ++ [e] }

/-- `x[7] <- (x[7] - 1) mod 256` (43_stack.md R140). -/
def State.decSp (s : State) : State := s.setReg spIdx (s.sp - 1)

/-- `x[7] <- (x[7] + 1) mod 256` (43_stack.md R141). -/
def State.incSp (s : State) : State := s.setReg spIdx (s.sp + 1)

/-- The code of a stop cause in HCAUSE (60_exceptions.md R181). -/
def HaltCause.code : HaltCause → BitVec 3
  | .none => 0
  | .hlt => 1
  | .unknownOpcode => 2
  | .addressFault => 3
  | .registerFault => 4
  | .aluUnsupported => 5

/-- Stop entry (60_exceptions.md R185): only the run state, HCAUSE and HINFO are written, and PC stays.
There is no return from a stop (R186): only the host's reset leaves it (`hostAct`). -/
def State.stop (s : State) (c : HaltCause) (info : BitVec 9) : State :=
  { s with run := .halted, hcause := c.code, hinfo := info }

/-- `raise <Cause>(info)` (00_scope.md R8): take the stop. -/
def raise (c : HaltCause) (info : BitVec 9) (s : State) : Result := .next (s.stop c info)

/-- Go on from a next state; stop where the first part stopped. -/
def Result.andThen (r : Result) (k : State → Result) : Result :=
  match r with
  | .next s => k s
  | .fault f => .fault f
  | .refused f => .refused f

/-- `MemRead(addr, 1)` (20_memory.md R52). -/
def memRead (addr : Nat) (s : State) (k : Byte → Result) : Result :=
  if Config.memSize ≤ addr then raise .addressFault (BitVec.ofNat 9 addr) s else k (s.mem.read addr)

/-- `MemWrite(addr, 1, v)` (20_memory.md R53). -/
def memWrite (addr : Nat) (v : Byte) (s : State) (k : State → Result) : Result :=
  if Config.memSize ≤ addr then raise .addressFault (BitVec.ofNat 9 addr) s
  else k (s.setMem (s.mem.write addr v))

end Sys2Proof.Machine
end

