-- ==== Sys2Proof/Machine/Operands.lean ====
section
/-! DEFINITION. The one operand form that is checked: a register operand byte (spec 30_encoding.md R86, 40_dispatch.md
R107). The immediate of LDI is used as it is (R87). -/

namespace Sys2Proof.Machine

/-- The register an operand byte names, or REGISTER_FAULT with the byte as its information.
Nested in operand order, regA outside regB, before the instruction changes any state (R107). -/
def withReg (r : Byte) (s : State) (k : RegIdx → Result) : Result :=
  if h : r.toNat < 8 then k ⟨r.toNat, h⟩ else raise .registerFault (zext9 r) s

end Sys2Proof.Machine
end

