-- ==== Sys2Proof/Machine/Alu.lean ====
section
/-! DEFINITION. The ALU primitive, ADD and MUL (spec 42_alu.md). -/

namespace Sys2Proof.Machine

/-- The ALU's result for an opcode byte, exact and then truncated to 8 bits (R130, R134); none for an opcode it does
not support (R133). -/
def aluResult (op a b : Byte) : Option Byte :=
  if op = Opcode.add.byte then some (BitVec.ofNat 8 (a.toNat + b.toNat))
  else if op = Opcode.mul.byte then some (BitVec.ofNat 8 (a.toNat * b.toNat))
  else none

/-- ALU(op, regA, regB) (R130): both operands are read before the write; no flag is written.
The ALU_UNSUPPORTED branch is kept and cannot be reached by an instruction (R133). -/
def alu (op : Byte) (a b : RegIdx) (s : State) (k : State → Result) : Result :=
  match aluResult op (s.reg a) (s.reg b) with
  | some v => k (s.setReg a v)
  | none => raise .aluUnsupported (zext9 op) s

/-- An instruction that the ALU executes: check both operands, compute, emit the marker, advance. -/
def aluInstr (op : Opcode) (regA regB : Byte) (s : State) : Result :=
  withReg regA s fun a =>
    withReg regB s fun b =>
      alu op.byte a b s fun t => .next ((t.emit (.diag op.byte)).advance 3)

/-- ADD regA, regB (R131). -/
def execAdd (regA regB : Byte) (s : State) : Result := aluInstr .add regA regB s

/-- MUL regA, regB (R132). -/
def execMul (regA regB : Byte) (s : State) : Result := aluInstr .mul regA regB s

end Sys2Proof.Machine
end

