-- ==== Sys2Proof/Machine/Flags.lean ====
section
/-! DEFINITION. The flag register FL: its two bits (spec 10_state.md R26) and the one computation that writes it
(45_compare_branch.md R160). -/

namespace Sys2Proof.Machine

/-- E, FL bit 0. -/
def State.flagE (s : State) : Bool := s.fl.getLsbD 0

/-- G, FL bit 1. -/
def State.flagG (s : State) : Bool := s.fl.getLsbD 1

/-- The whole FL byte after comparing `a` with `b`, as unsigned values (R160). -/
def compareFlags (a b : Byte) : Byte :=
  if a.toNat = b.toNat then 0x01
  else if a.toNat > b.toNat then 0x02
  else 0x00

end Sys2Proof.Machine
end

