-- ==== Sys2Proof/Machine/CompareBranch.lean ====
section
/-! DEFINITION. CMP, JMP, JEQ and JNE (spec 45_compare_branch.md). A target is a register value widened with `zext9` (R161). -/

namespace Sys2Proof.Machine

/-- CMP regA, regB (R160): the whole FL byte is written. -/
def execCmp (regA regB : Byte) (s : State) : Result :=
  withReg regA s fun a =>
    withReg regB s fun b => .next ((s.setFl (compareFlags (s.reg a) (s.reg b))).advance 3)

/-- A jump to a register's value where `taken` holds, else past the two bytes of the instruction.
The register operand is checked whether or not the jump is taken (R163, R164). -/
def jumpIf (taken : Bool) (regA : Byte) (s : State) : Result :=
  withReg regA s fun a => .next (if taken then s.setPc (zext9 (s.reg a)) else s.advance 2)

/-- JMP regA (R162). -/
def execJmp (regA : Byte) (s : State) : Result := jumpIf true regA s

/-- JEQ regA (R163): taken when FL bit 0 is 1. -/
def execJeq (regA : Byte) (s : State) : Result := jumpIf s.flagE regA s

/-- JNE regA (R164): taken when the whole FL byte is 0, despite its name. -/
def execJne (regA : Byte) (s : State) : Result := jumpIf (s.fl == 0x00) regA s

end Sys2Proof.Machine
end

