-- ==== Sys2Proof/Machine/Control.lean ====
section
/-! DEFINITION. The two stops that are no fault: HLT and the unknown opcode (spec 40_dispatch.md R110, R111). -/

namespace Sys2Proof.Machine

/-- HLT (R110): HCAUSE 1, HINFO 0, PC stays at the HLT byte, no event. -/
def execHlt (s : State) : Result := .next (s.stop .hlt 0)

/-- UnknownOpcode(op) (R111): report the byte, then stop with HCAUSE 2; PC stays. -/
def unknownOpcode (op : Byte) (s : State) : Result :=
  .next ((s.emit (.unknown op)).stop .unknownOpcode (zext9 op))

end Sys2Proof.Machine
end

