-- ==== Sys2Proof/Machine/RegisterOutput.lean ====
section
/-! DEFINITION. LDI and PRN (spec 41_register_output.md). -/

namespace Sys2Proof.Machine

/-- LDI regA, imm (R120). -/
def execLdi (regA imm : Byte) (s : State) : Result :=
  withReg regA s fun a => .next ((s.setReg a imm).advance 3)

/-- PRN regA (R121). -/
def execPrn (regA : Byte) (s : State) : Result :=
  withReg regA s fun a => .next ((s.emit (.prn (s.reg a))).advance 2)

end Sys2Proof.Machine
end

