-- ==== Sys2Proof/Machine/Stack.lean ====
section
/-! DEFINITION. PUSH and POP (spec 43_stack.md). Statements run in the order written, so a register operand of 7 sees SP
as the statement before left it (00_scope.md R8, D6). -/

namespace Sys2Proof.Machine

/-- The PUSH mechanics (R140): decrement SP, then store at the new SP a value that is read after the decrement. -/
def pushByte (v : State → Byte) (s : State) (k : State → Result) : Result :=
  memWrite s.decSp.sp.toNat (v s.decSp) s.decSp k

/-- PUSH regA (R140). -/
def execPush (regA : Byte) (s : State) : Result :=
  withReg regA s fun a => pushByte (fun t => t.reg a) s fun t => .next (t.advance 2)

/-- POP regA (R141): load from SP, write regA, then increment SP as it then stands. -/
def execPop (regA : Byte) (s : State) : Result :=
  withReg regA s fun a => memRead s.sp.toNat s fun v => .next ((s.setReg a v).incSp.advance 2)

end Sys2Proof.Machine
end

