-- ==== Sys2Proof/Machine/Subroutine.lean ====
section
/-! DEFINITION. CALL and RET (spec 44_subroutine.md). Both replace PC and receive no default advance (40_dispatch.md R105). -/

namespace Sys2Proof.Machine

/-- CALL regA (R150): the return address must fit a byte (D7); the target is read after the push (D6). -/
def execCall (regA : Byte) (s : State) : Result :=
  withReg regA s fun a =>
    let ret := s.pc.toNat + 2
    if Config.memSize ≤ ret then raise .addressFault (BitVec.ofNat 9 ret) s
    else pushByte (fun _ => BitVec.ofNat 8 ret) s fun t => .next (t.setPc (zext9 (t.reg a)))

/-- RET (R151): pop whatever byte is on top of the stack into PC (43_stack.md R142). -/
def execRet (s : State) : Result :=
  memRead s.sp.toNat s fun v => .next (s.incSp.setPc (zext9 v))

end Sys2Proof.Machine
end

