-- ==== Sys2Proof/Machine/Dispatch.lean ====
section
/-! DEFINITION. Execution of a decoded instruction: one arm for each constructor of Instr (spec 40_dispatch.md R100). -/

namespace Sys2Proof.Machine

/-- Check the register operands and execute an instruction that stands at the state's PC (R100, R107). -/
def exec (i : Instr) (s : State) : Host.Outcome State Fault Refusal :=
  match i with
  | .ldi regA imm => Sys2Proof.Machine.execLdi regA imm s
  | .prn regA => Sys2Proof.Machine.execPrn regA s
  | .hlt => Sys2Proof.Machine.execHlt s
  | .add regA regB => Sys2Proof.Machine.execAdd regA regB s
  | .mul regA regB => Sys2Proof.Machine.execMul regA regB s
  | .push regA => Sys2Proof.Machine.execPush regA s
  | .pop regA => Sys2Proof.Machine.execPop regA s
  | .call regA => Sys2Proof.Machine.execCall regA s
  | .ret => Sys2Proof.Machine.execRet s
  | .cmp regA regB => Sys2Proof.Machine.execCmp regA regB s
  | .jmp regA => Sys2Proof.Machine.execJmp regA s
  | .jeq regA => Sys2Proof.Machine.execJeq regA s
  | .jne regA => Sys2Proof.Machine.execJne regA s

end Sys2Proof.Machine
end

