-- ==== Sys2Proof/Machine/Fetch.lean ====
section
/-! DEFINITION. Fetching an instruction at PC, and the stops a fetch can take (spec 40_dispatch.md R101, R102, R111;
60_exceptions.md R184). -/

namespace Sys2Proof.Machine

/-- The bytes that exist at PC, PC+1 and PC+2: three, or fewer where an address would pass 255.
Reading them has no effect (20_memory.md R57), and the decoder takes no more of them than the instruction has, so a
byte past 255 that is not needed never faults (R102, D11). -/
def State.codeBytes (s : State) : List Byte :=
  (List.range' s.pc.toNat (min 3 (Config.memSize - s.pc.toNat))).map s.mem.read

/-- The instruction at PC, from memory as it stands now (20_memory.md R67). -/
def fetch (s : State) : Except DecodeError Instr :=
  match decode s.codeBytes with
  | .ok (i, _) => .ok i
  | .error e => .error e

/-- The stop of a failed fetch: the unknown-opcode stop, or ADDRESS_FAULT with the first address that is needed and is
past 255, which is PC itself where PC is 256 or more (R101, R102). -/
def fetchStop : DecodeError → State → Result
  | .unknownOpcode op, s => unknownOpcode op s
  | .missingByte k, s => raise .addressFault (s.pc + BitVec.ofNat 9 k) s

/-- Store the three bytes of a table word where the next fetch reads them. -/
def State.placeWord (s : State) (nbits w : Nat) : State :=
  s.setMem (s.mem.writeBytes s.pc.toNat (tableBytes nbits w))

end Sys2Proof.Machine
end

