-- ==== Sys2Proof/Machine/Cycle.lean ====
section
/-! DEFINITION. One cycle of the dispatch loop (spec 40_dispatch.md R100). -/

namespace Sys2Proof.Machine

/-- Fetch and decode, then check the operands and execute, or take the fetch's stop. -/
def runCycle (s : State) : Result :=
  match fetch s with
  | .ok i => exec i s
  | .error e => fetchStop e s

/-- A CORE that is HALTED or held in reset takes no step: nothing changes (R109, 10_state.md R42; log entry 2). -/
def dispatchCycle (s : State) : Result :=
  match s.run with
  | .held => .next s
  | .running => runCycle s
  | .halted => .next s

end Sys2Proof.Machine
end

