-- ==== Sys2Proof/Machine/Step.lean ====
section
/-! DEFINITION. One step of the machine (spec 40_dispatch.md R100), and placing an instruction where the next step
fetches it. -/

namespace Sys2Proof.Machine

/-- One step: one cycle of the dispatch loop, one instruction (D14). -/
def step (s : State) : Host.Outcome State Fault Refusal := dispatchCycle s

/-- The state with a table word's instruction stored at PC (log entry 4). -/
def State.withFetchWord (s : State) (nbits w : Nat) : State := s.placeWord nbits w

end Sys2Proof.Machine
end

