-- ==== Sys2Proof/Machine/HostPort.lean ====
section
/-! DEFINITION. The host control and load interface (spec 10_state.md R42; 70_reset_and_hazards.md R200 to R203). -/

namespace Sys2Proof.Machine

/-- What the host can do to the CORE (R42). -/
inductive HostAction where
  | assertReset
  | load (addr data : Byte)
  | release
  deriving DecidableEq, Repr

/-- The state of R200: every piece of state at its reset value, and the CORE held. -/
def State.heldReset : State := { State.reset with run := .held }

/-- One host action. A load write or a release is admitted only while the CORE is held (R42, D17). -/
def hostAct (a : HostAction) (s : State) : Result :=
  match a with
  | .assertReset => .next State.heldReset
  | .load addr data =>
    if s.run = .held then .next (s.setMem (s.mem.write addr.toNat data)) else .refused .loadWhileReleased
  | .release => if s.run = .held then .next { s with run := .running } else .refused .releaseWhileReleased

/-- Load writes of consecutive bytes from address `at_` on (R201). -/
def loadFrom : Nat → List Byte → State → Result
  | _, [], s => .next s
  | at_, b :: bs, s => Result.andThen (hostAct (.load (BitVec.ofNat 8 at_) b) s) (loadFrom (at_ + 1) bs)

/-- Load a program image: byte i goes to address i; an image over 256 bytes is refused (R201, R203, D19). -/
def loadImage (image : List Byte) (s : State) : Result :=
  if Config.memSize < image.length then .refused .imageTooLong else loadFrom 0 image s

/-- One launch: reset, load, release (R200 to R202). -/
def launch (image : List Byte) (s : State) : Result :=
  Result.andThen (Result.andThen (hostAct .assertReset s) (loadImage image)) (hostAct .release)

end Sys2Proof.Machine
end

