-- ==== Sys2Proof/Machine/Output.lean ====
section
/-! DEFINITION. The coding of output events (spec 10_state.md R41, D13), the status interface (R43), and the text the
host prints for an event as far as the spec gives it. -/

namespace Sys2Proof.Machine

/-- `out_kind`; 3 is never emitted (R41). -/
def Event.kind : Event → BitVec 2
  | .prn _ => 0
  | .diag _ => 1
  | .unknown _ => 2

/-- `out_data` (R41). -/
def Event.data : Event → Byte
  | .prn v => v
  | .diag op => op
  | .unknown op => op

/-- The text the host prints: PRN in decimal (R41); the other texts are the open ones of `Config` (D12, N11). -/
def Event.text : Event → String
  | .prn v => toString v.toNat
  | .diag _ => Config.diagText
  | .unknown op => Config.unknownText op

/-- What the host reads on the status interface (R43). -/
structure Status where
  running : Bool
  hcause : BitVec 3
  hinfo : BitVec 9
  deriving DecidableEq, Repr

/-- The status of a state: `running` is 1 exactly when it is RUNNING (R43). -/
def State.status (s : State) : Status := ⟨decide (s.run = .running), s.hcause, s.hinfo⟩

end Sys2Proof.Machine
end

