-- ==== Sys2Proof/Safety.lean ====
section
/-! DEFINITION. How a run ends (spec 70_reset_and_hazards.md R210), and the invariant of the machine's states. -/

namespace Sys2Proof.Machine

/-- A run that completed normally: HALTED with HCAUSE 1 (R210). -/
abbrev CompletedNormally (s : State) : Prop := s.run = .halted ∧ s.hcause = HaltCause.hlt.code

/-- A graceful stop, no completion: HALTED with UNKNOWN_OPCODE (R210). -/
abbrev GracefulStop (s : State) : Prop := s.run = .halted ∧ s.hcause = HaltCause.unknownOpcode.code

/-- A fault: HALTED with ADDRESS_FAULT, REGISTER_FAULT or ALU_UNSUPPORTED (R210). -/
abbrev FaultStop (s : State) : Prop :=
  s.run = .halted ∧ (s.hcause = HaltCause.addressFault.code ∨ s.hcause = HaltCause.registerFault.code ∨
    s.hcause = HaltCause.aluUnsupported.code)

/-- The result of a run: the halt record, the events, and the final registers, FL, PC and memory (R210). -/
structure RunResult where
  hcause : BitVec 3
  hinfo : BitVec 9
  events : List Event
  regs : Vector Byte 8
  fl : Byte
  pc : PcWord
  mem : Memory
  deriving DecidableEq, Repr

/-- The result of a state in which a run has ended; none while it has not (R212: no result is not a stop). -/
def State.result (s : State) : Option RunResult :=
  if s.run = .halted then some ⟨s.hcause, s.hinfo, s.events, s.regs, s.fl, s.pc, s.mem⟩ else none

/-- FL takes only the values 0x00, 0x01 and 0x02 (10_state.md R26). -/
abbrev FlLegal (s : State) : Prop := s.fl = 0x00 ∨ s.fl = 0x01 ∨ s.fl = 0x02

/-- PC names a memory cell or is 256 (10_state.md R24). -/
abbrev PcLegal (s : State) : Prop := s.pc.toNat ≤ 256

/-- HCAUSE and HINFO are 0 unless the CORE is HALTED (10_state.md R29); then they are a row of 60_exceptions.md R181:
HLT with 0, UNKNOWN_OPCODE with a byte, ADDRESS_FAULT with 256, or REGISTER_FAULT with an operand byte of 8 or more. -/
abbrev HaltRecordLegal (s : State) : Prop :=
  (s.run ≠ .halted ∧ s.hcause = 0 ∧ s.hinfo = 0) ∨
  (s.run = .halted ∧
    ((s.hcause = 1 ∧ s.hinfo = 0) ∨
     (s.hcause = 2 ∧ s.hinfo.toNat ≤ 255) ∨
     (s.hcause = 3 ∧ s.hinfo = 256) ∨
     (s.hcause = 4 ∧ 8 ≤ s.hinfo.toNat ∧ s.hinfo.toNat ≤ 255)))

/-- What holds of every state a run reaches. -/
abbrev State.Inv (s : State) : Prop := s.mem.wf ∧ FlLegal s ∧ PcLegal s ∧ HaltRecordLegal s

end Sys2Proof.Machine
end

