-- ==== Sys2Proof/Certificates/Slice0/Obligations.lean ====
section
/-! DEFINITION. The statements about the LS8 CORE, one for each rule or family of rules of spec/. A docstring names the
decisions D<n> of spec/92_eei_decisions.md a statement rests on: those are the spec's own choices. -/

namespace Sys2Proof.Machine

/-- Every register keeps its value but those listed. -/
abbrev KeepsRegs (s t : State) (but : List RegIdx) : Prop := ∀ r : RegIdx, r ∉ but → t.reg r = s.reg r

/-- Every byte of memory keeps its value. -/
abbrev KeepsMemory (s t : State) : Prop := ∀ x : Nat, t.mem.read x = s.mem.read x

/-- Every byte of memory keeps its value but the one stored to. -/
abbrev KeepsMemoryBut (s t : State) (stored : Nat) : Prop := ∀ x : Nat, x ≠ stored → t.mem.read x = s.mem.read x

/-- The run state and the halt record are unchanged. -/
abbrev KeepsRunning (s t : State) : Prop := t.run = s.run ∧ t.hcause = s.hcause ∧ t.hinfo = s.hinfo

/-- The address PUSH and CALL store to: the decremented SP (43_stack.md R140, 44_subroutine.md R150). -/
abbrev pushAddress (s : State) : Nat := s.decSp.sp.toNat

/-- The opcode values that 30_encoding.md R89 lists as unassigned. -/
abbrev Unassigned (b : Byte) : Prop :=
  b.toNat = 0x00 ∨ (0x02 ≤ b.toNat ∧ b.toNat ≤ 0x10) ∨ (0x12 ≤ b.toNat ∧ b.toNat ≤ 0x44) ∨
  (0x48 ≤ b.toNat ∧ b.toNat ≤ 0x4F) ∨ (0x51 ≤ b.toNat ∧ b.toNat ≤ 0x53) ∨ (0x57 ≤ b.toNat ∧ b.toNat ≤ 0x81) ∨
  (0x83 ≤ b.toNat ∧ b.toNat ≤ 0x9F) ∨ b.toNat = 0xA1 ∨ (0xA3 ≤ b.toNat ∧ b.toNat ≤ 0xA6) ∨ 0xA8 ≤ b.toNat

/-- The bytes of an instruction stand at PC, none of them past address 255. -/
abbrev StandsAtPc (s : State) (i : Instr) : Prop :=
  s.pc.toNat + (encode i).length ≤ 256 ∧
  ∀ (k : Nat) (h : k < (encode i).length), s.mem.read (s.pc.toNat + k) = (encode i)[k]

/-- The next step of `u` executes what the byte `b` at PC selects (40_dispatch.md R103): an instruction of the opcode it
encodes, with the operand bytes memory holds, where they all exist; ADDRESS_FAULT(256) where they do not (R102); the
unknown-opcode stop where it encodes none (R111). -/
abbrev ExecutesByte (u : State) (b : Byte) : Prop :=
  (∀ o : Opcode, o.byte = b → u.pc.toNat + o.length ≤ 256 →
    ∃ i : Instr, i.opcode = o ∧ StandsAtPc u i ∧ step u = exec i u) ∧
  (∀ o : Opcode, o.byte = b → 256 < u.pc.toNat + o.length →
    step u = .next { u with run := .halted, hcause := 3, hinfo := 256 }) ∧
  ((∀ o : Opcode, o.byte ≠ b) → step u = unknownOpcode b u)

/-- The next fetch of `u`, where it reaches the address `x`, takes the byte `b` from it: as the opcode where PC is `x`,
and as the byte at offset `k` of the instruction that stands at PC where `x` is PC + k. -/
abbrev FetchSeesByte (u : State) (x : Nat) (b : Byte) : Prop :=
  (u.pc.toNat = x → ExecutesByte u b) ∧
  ∀ (i : Instr) (k : Nat) (h : k < (encode i).length), StandsAtPc u i → x = u.pc.toNat + k →
    (encode i)[k] = b ∧ step u = exec i u

end Sys2Proof.Machine

open Sys2Proof Sys2Proof.Machine

/-! ## Encoding -/

/-- 30_encoding.md R84 and R85: every row's binary value, length, format and operands, and its AA, B and C columns. -/
def Obligations.OpcodeTableEncodings : Prop :=
  (∀ a imm : Byte, encode (.ldi a imm) = [0b10000010, a, imm]) ∧
  (∀ a : Byte, encode (.prn a) = [0b01000111, a]) ∧
  encode .hlt = [0b00000001] ∧
  (∀ a b : Byte, encode (.add a b) = [0b10100000, a, b]) ∧
  (∀ a b : Byte, encode (.mul a b) = [0b10100010, a, b]) ∧
  (∀ a : Byte, encode (.push a) = [0b01000101, a]) ∧
  (∀ a : Byte, encode (.pop a) = [0b01000110, a]) ∧
  (∀ a : Byte, encode (.call a) = [0b01010000, a]) ∧
  encode .ret = [0b00010001] ∧
  (∀ a b : Byte, encode (.cmp a b) = [0b10100111, a, b]) ∧
  (∀ a : Byte, encode (.jmp a) = [0b01010100, a]) ∧
  (∀ a : Byte, encode (.jeq a) = [0b01010101, a]) ∧
  (∀ a : Byte, encode (.jne a) = [0b01010110, a]) ∧
  (Opcode.all.map fun o =>
      (o.mnemonic, o.byte.toNat, opcodeFieldAA o.byte, opcodeFieldB o.byte, opcodeFieldC o.byte, o.length)) =
    [("LDI", 0x82, 2, false, false, 3), ("PRN", 0x47, 1, false, false, 2), ("HLT", 0x01, 0, false, false, 1),
     ("ADD", 0xA0, 2, true, false, 3), ("MUL", 0xA2, 2, true, false, 3), ("PUSH", 0x45, 1, false, false, 2),
     ("POP", 0x46, 1, false, false, 2), ("CALL", 0x50, 1, false, true, 2), ("RET", 0x11, 0, false, true, 1),
     ("CMP", 0xA7, 2, true, false, 3), ("JMP", 0x54, 1, false, true, 2), ("JEQ", 0x55, 1, false, true, 2),
     ("JNE", 0x56, 1, false, true, 2)]

/-- Words written out from R84 and the examples of R120 to R164 decode to the instruction they stand for. -/
def Obligations.SampleWordsDecode : Prop :=
  decode [0x82, 0x00, 0x08] = .ok (.ldi 0 8, []) ∧ decode [0x47, 0x00] = .ok (.prn 0, []) ∧
  decode [0xA0, 0x00, 0x01] = .ok (.add 0 1, []) ∧ decode [0x45, 0x00, 0x01] = .ok (.push 0, [0x01]) ∧
  decode [0x50, 0x02] = .ok (.call 2, []) ∧ decode [0x11] = .ok (.ret, []) ∧
  decode [0xA7, 0x00, 0x01] = .ok (.cmp 0 1, []) ∧ decode [0x56, 0x03] = .ok (.jne 3, []) ∧
  decode [0x01] = .ok (.hlt, []) ∧ decode [0x83, 0x00, 0x00] = .error (.unknownOpcode 0x83)

/-- Decoding an encoded instruction, whatever follows it, gives the instruction back with every operand byte, well
formed or not, and the bytes that follow. -/
def Obligations.DecodeInvertsEncode : Prop :=
  ∀ (i : Instr) (rest : List Byte), decode (encode i ++ rest) = .ok (i, rest)

/-- Bytes that decode to an instruction are that instruction's encoding and what follows: no bit is ignored. -/
def Obligations.DecodedBytesAreTheEncoding : Prop :=
  ∀ (bs : List Byte) (i : Instr) (rest : List Byte), decode bs = .ok (i, rest) → bs = encode i ++ rest

/-- 40_dispatch.md R103: at most one encoding matches all 8 bits of a byte; a match selects that instruction's rule;
no match selects the unknown-opcode rule. -/
def Obligations.DecodeByExactMatch : Prop :=
  (∀ o o' : Opcode, o.byte = o'.byte → o = o') ∧
  (∀ (b : Byte) (bs : List Byte) (i : Instr) (rest : List Byte),
    decode (b :: bs) = .ok (i, rest) → b = i.opcode.byte) ∧
  (∀ (s : State) (o : Opcode), s.run = .running → o.byte = s.mem.read s.pc.toNat → s.pc.toNat + o.length ≤ 256 →
    ∃ i : Instr, i.opcode = o ∧ step s = exec i s) ∧
  (∀ s : State, s.run = .running → s.pc.toNat < 256 → (∀ o : Opcode, o.byte ≠ s.mem.read s.pc.toNat) →
    step s = unknownOpcode (s.mem.read s.pc.toNat) s)

/-- The descriptive fields of 30_encoding.md R82 (the spec's own reading of the table, 90_conflicts.md C1): AA counts
the operands, B marks ADD, MUL and CMP, C marks the instructions that may replace PC. -/
def Obligations.OpcodeFieldsDescribeTheTable : Prop :=
  ∀ o : Opcode, opcodeFieldAA o.byte = o.operandCount ∧
    (opcodeFieldB o.byte = true ↔ o ∈ [Opcode.add, .mul, .cmp]) ∧
    (opcodeFieldC o.byte = true ↔ o ∈ [Opcode.call, .ret, .jmp, .jeq, .jne])

/-! ## The step -/

/-- A RUNNING CORE executes the instruction whose bytes stand at PC; an instruction whose last byte is at 255 is no
exception, and no byte after it is needed (40_dispatch.md R100, R102, D11). -/
def Obligations.StepRunsDecodedInstruction : Prop :=
  ∀ (s : State) (i : Instr), s.run = .running → StandsAtPc s i → step s = exec i s

/-- A CORE that is HALTED, or held in reset by the host, takes no step: the model answers the state unchanged, which is
its own form of 'no step' (log entry 2; 40_dispatch.md R109, 10_state.md R28, R42). -/
def Obligations.NoStepUnlessRunning : Prop :=
  ∀ s : State, s.run ≠ .running → step s = .next s

/-- Once HALTED, every number of further steps leaves the state, so the status the host reads is final until a reset
(10_state.md R43; log entry 2). -/
def Obligations.HaltedStateIsFinal : Prop :=
  ∀ (n : Nat) (s : State), s.run = .halted → Host.Core.run Sys2Proof.core n s = .next s

/-- No instruction and no step ends in a fault or a refusal of the model. This is the model's own form: that every
exceptional condition, which 60_exceptions.md R180 says stops the run, is a next state that is HALTED and never an
outcome fault is log entry 14 (DEDUCED), and that a step of a HALTED or held CORE answers a next state at all is log
entry 2 (DESIGN CHOICE). -/
def Obligations.EveryStepHasANextState : Prop :=
  (∀ (i : Instr) (s : State), ∃ t : State, exec i s = .next t) ∧ ∀ s : State, ∃ t : State, step s = .next t

/-- The stops of a fetch in the order of 60_exceptions.md R184, with the codes of R181 (decisions D1, D9, D10):
ADDRESS_FAULT(PC) where PC is 256 or more; then the unknown opcode, whatever operand bytes are missing; then
ADDRESS_FAULT(256) where a byte of the instruction would lie past 255. -/
def Obligations.FetchStopsInPriorityOrder : Prop :=
  ∀ s : State, s.run = .running →
    (256 ≤ s.pc.toNat → step s = .next { s with run := .halted, hcause := 3, hinfo := s.pc }) ∧
    (s.pc.toNat < 256 → (∀ o : Opcode, o.byte ≠ s.mem.read s.pc.toNat) →
      ∃ t : State, step s = .next t ∧ t.run = .halted ∧ t.hcause = 2) ∧
    (∀ o : Opcode, s.pc.toNat < 256 → o.byte = s.mem.read s.pc.toNat → 256 < s.pc.toNat + o.length →
      step s = .next { s with run := .halted, hcause := 3, hinfo := 256 })

/-- 40_dispatch.md R111 and 30_encoding.md R89: exactly the 243 listed values are unassigned, and fetching one emits
UNKNOWN with the byte and halts with HCAUSE 2 and the byte in HINFO, at any address up to 255, changing nothing else
(codes by decision D9, PC by D15). -/
def Obligations.UnassignedOpcodeStops : Prop :=
  (∀ b : Byte, Unassigned b ↔ ∀ o : Opcode, o.byte ≠ b) ∧
  ∀ s : State, s.run = .running → s.pc.toNat < 256 → Unassigned (s.mem.read s.pc.toNat) →
    ∃ t : State, step s = .next t ∧ t.run = .halted ∧ t.hcause = 2 ∧
      t.hinfo.toNat = (s.mem.read s.pc.toNat).toNat ∧
      t.events = s.events ++ [.unknown (s.mem.read s.pc.toNat)] ∧ t.pc = s.pc ∧ t.fl = s.fl ∧
      KeepsRegs s t [] ∧ KeepsMemory s t

/-- 40_dispatch.md R107 (decisions D3, D8, D10): the first register operand byte of 8 or more, regA before regB, stops
the instruction with REGISTER_FAULT and that byte, before any other check and with nothing else changed; the imm byte
of LDI is not checked. -/
def Obligations.RegisterOperandCheckStops : Prop :=
  ∀ (s : State) (a b : Byte),
    (8 ≤ a.toNat →
      (∀ i ∈ [Instr.ldi a b, .prn a, .add a b, .mul a b, .push a, .pop a, .call a, .cmp a b, .jmp a, .jeq a, .jne a],
        exec i s = .next { s with run := .halted, hcause := 4, hinfo := zext9 a })) ∧
    (a.toNat < 8 → 8 ≤ b.toNat →
      ∀ i ∈ [Instr.add a b, .mul a b, .cmp a b],
        exec i s = .next { s with run := .halted, hcause := 4, hinfo := zext9 b })

/-! ## What each instruction does, and its frame -/

/-- LDI (41_register_output.md R120, its effect): any of R0 to R7, R7 among them, takes the immediate byte as it is. -/
def Obligations.LdiLoadsImmediate : Prop :=
  ∀ (s : State) (a imm : Byte) (ha : a.toNat < 8),
    ∃ t : State, exec (.ldi a imm) s = .next t ∧ t.reg ⟨a.toNat, ha⟩ = imm ∧ t.pc = s.pc + 3 ∧
      KeepsRegs s t [⟨a.toNat, ha⟩] ∧ t.fl = s.fl ∧ t.events = s.events ∧ KeepsRunning s t ∧ KeepsMemory s t

/-- PRN (41_register_output.md R121, its effect): the register's value is emitted, `out_kind` 0 (coding by D13). -/
def Obligations.PrnEmitsRegister : Prop :=
  ∀ (s : State) (a : Byte) (ha : a.toNat < 8),
    ∃ (t : State) (e : Event), exec (.prn a) s = .next t ∧ t.events = s.events ++ [e] ∧ e = .prn (s.reg ⟨a.toNat, ha⟩) ∧
      e.kind = 0 ∧ e.data = s.reg ⟨a.toNat, ha⟩ ∧ t.pc = s.pc + 2 ∧
      KeepsRegs s t [] ∧ t.fl = s.fl ∧ KeepsRunning s t ∧ KeepsMemory s t

/-- ADD (42_alu.md R131, its effect): the sum modulo 256 of the two registers' values before the instruction, regA and
regB equal or not, and the marker DIAG(0xA0) (content by D12). -/
def Obligations.AddWritesSum : Prop :=
  ∀ (s : State) (a b : Byte) (ha : a.toNat < 8) (hb : b.toNat < 8),
    ∃ t : State, exec (.add a b) s = .next t ∧
      (t.reg ⟨a.toNat, ha⟩).toNat = ((s.reg ⟨a.toNat, ha⟩).toNat + (s.reg ⟨b.toNat, hb⟩).toNat) % 256 ∧
      t.events = s.events ++ [.diag 0xA0] ∧ t.pc = s.pc + 3 ∧
      KeepsRegs s t [⟨a.toNat, ha⟩] ∧ t.fl = s.fl ∧ KeepsRunning s t ∧ KeepsMemory s t

/-- MUL (42_alu.md R132, its effect): the low 8 bits of the product, and the marker DIAG(0xA2) (content by D12). -/
def Obligations.MulWritesProduct : Prop :=
  ∀ (s : State) (a b : Byte) (ha : a.toNat < 8) (hb : b.toNat < 8),
    ∃ t : State, exec (.mul a b) s = .next t ∧
      (t.reg ⟨a.toNat, ha⟩).toNat = ((s.reg ⟨a.toNat, ha⟩).toNat * (s.reg ⟨b.toNat, hb⟩).toNat) % 256 ∧
      t.events = s.events ++ [.diag 0xA2] ∧ t.pc = s.pc + 3 ∧
      KeepsRegs s t [⟨a.toNat, ha⟩] ∧ t.fl = s.fl ∧ KeepsRunning s t ∧ KeepsMemory s t

/-- PUSH (43_stack.md R140, its effect): SP is decremented modulo 256 and the register's value is stored at the new SP;
PUSH R7 stores the decremented SP (D6). The only byte of memory that may change is that one. -/
def Obligations.PushStoresRegister : Prop :=
  ∀ (s : State) (a : Byte) (ha : a.toNat < 8), s.mem.wf →
    ∃ t : State, exec (.push a) s = .next t ∧ t.sp.toNat = (s.sp.toNat + 255) % 256 ∧
      pushAddress s = (s.sp.toNat + 255) % 256 ∧
      t.mem.read (pushAddress s) = (if a.toNat = 7 then t.sp else s.reg ⟨a.toNat, ha⟩) ∧
      KeepsMemoryBut s t (pushAddress s) ∧ t.pc = s.pc + 2 ∧
      KeepsRegs s t [7] ∧ t.fl = s.fl ∧ t.events = s.events ∧ KeepsRunning s t

/-- POP (43_stack.md R141, its effect): the register takes the byte at SP, then SP is incremented modulo 256; POP R7
increments the loaded byte (D6). The popped cell is not cleared. -/
def Obligations.PopLoadsRegister : Prop :=
  ∀ (s : State) (a : Byte) (ha : a.toNat < 8),
    ∃ t : State, exec (.pop a) s = .next t ∧
      (a.toNat ≠ 7 → t.reg ⟨a.toNat, ha⟩ = s.mem.read s.sp.toNat ∧ t.sp.toNat = (s.sp.toNat + 1) % 256) ∧
      (a.toNat = 7 → t.sp.toNat = ((s.mem.read s.sp.toNat).toNat + 1) % 256) ∧ t.pc = s.pc + 2 ∧
      KeepsRegs s t [⟨a.toNat, ha⟩, 7] ∧ t.fl = s.fl ∧ t.events = s.events ∧ KeepsRunning s t ∧ KeepsMemory s t

/-- CALL below address 254 (44_subroutine.md R150, its effect): the address after it is pushed, and PC takes the
register's value as it is after the push, so CALL R7 jumps to the cell just written (D6). -/
def Obligations.CallPushesAndJumps : Prop :=
  ∀ (s : State) (a : Byte) (ha : a.toNat < 8), s.mem.wf → s.pc.toNat + 2 < 256 →
    ∃ t : State, exec (.call a) s = .next t ∧ t.sp.toNat = (s.sp.toNat + 255) % 256 ∧
      pushAddress s = (s.sp.toNat + 255) % 256 ∧ (t.mem.read (pushAddress s)).toNat = s.pc.toNat + 2 ∧
      t.pc.toNat = (if a.toNat = 7 then (s.sp.toNat + 255) % 256 else (s.reg ⟨a.toNat, ha⟩).toNat) ∧
      KeepsMemoryBut s t (pushAddress s) ∧
      KeepsRegs s t [7] ∧ t.fl = s.fl ∧ t.events = s.events ∧ KeepsRunning s t

/-- CALL whose return address does not fit a stack byte, which is CALL at 254 (44_subroutine.md R150; decision D7):
ADDRESS_FAULT with that address, and nothing else changes. -/
def Obligations.CallReturnAddressMustFit : Prop :=
  ∀ (s : State) (a : Byte), a.toNat < 8 → 256 ≤ s.pc.toNat + 2 →
    exec (.call a) s = .next { s with run := .halted, hcause := 3, hinfo := BitVec.ofNat 9 (s.pc.toNat + 2) }

/-- RET (44_subroutine.md R151): one byte 0x11; whatever byte is on top of the stack goes to PC, SP is incremented
modulo 256; no flag, no exception of its own, in any state; at address 255 too. -/
def Obligations.RetPopsIntoPc : Prop :=
  encode .ret = [0x11] ∧
  (∀ s : State, ∃ t : State, exec .ret s = .next t ∧ t.pc.toNat = (s.mem.read s.sp.toNat).toNat ∧
    t.sp.toNat = (s.sp.toNat + 1) % 256 ∧
    KeepsRegs s t [7] ∧ t.fl = s.fl ∧ t.events = s.events ∧ KeepsRunning s t ∧ KeepsMemory s t) ∧
  (∀ s : State, s.run = .running → s.pc.toNat < 256 → s.mem.read s.pc.toNat = 0x11 → step s = exec .ret s)

/-- CMP (45_compare_branch.md R160, its effect): the whole FL byte is written, unsigned comparison (bits 7:2 by D5). -/
def Obligations.CmpWritesFlags : Prop :=
  ∀ (s : State) (a b : Byte) (ha : a.toNat < 8) (hb : b.toNat < 8),
    ∃ t : State, exec (.cmp a b) s = .next t ∧
      ((s.reg ⟨a.toNat, ha⟩).toNat = (s.reg ⟨b.toNat, hb⟩).toNat → t.fl = 0x01) ∧
      ((s.reg ⟨a.toNat, ha⟩).toNat > (s.reg ⟨b.toNat, hb⟩).toNat → t.fl = 0x02) ∧
      ((s.reg ⟨a.toNat, ha⟩).toNat < (s.reg ⟨b.toNat, hb⟩).toNat → t.fl = 0x00) ∧ t.pc = s.pc + 3 ∧
      KeepsRegs s t [] ∧ t.events = s.events ∧ KeepsRunning s t ∧ KeepsMemory s t

/-- JMP (45_compare_branch.md R162, its effect): PC takes the register's value. -/
def Obligations.JmpJumps : Prop :=
  ∀ (s : State) (a : Byte) (ha : a.toNat < 8),
    ∃ t : State, exec (.jmp a) s = .next t ∧ t.pc.toNat = (s.reg ⟨a.toNat, ha⟩).toNat ∧
      KeepsRegs s t [] ∧ t.fl = s.fl ∧ t.events = s.events ∧ KeepsRunning s t ∧ KeepsMemory s t

/-- JEQ (45_compare_branch.md R163, its effect): the jump is taken exactly when FL bit 0 is 1. -/
def Obligations.JeqJumpsOnEqual : Prop :=
  ∀ (s : State) (a : Byte) (ha : a.toNat < 8),
    ∃ t : State, exec (.jeq a) s = .next t ∧
      (s.fl.getLsbD 0 = true → t.pc.toNat = (s.reg ⟨a.toNat, ha⟩).toNat) ∧
      (s.fl.getLsbD 0 = false → t.pc = s.pc + 2) ∧
      KeepsRegs s t [] ∧ t.fl = s.fl ∧ t.events = s.events ∧ KeepsRunning s t ∧ KeepsMemory s t

/-- JNE (45_compare_branch.md R164, its effect): the jump is taken exactly when the whole FL byte is 0. -/
def Obligations.JneJumpsOnNoFlag : Prop :=
  ∀ (s : State) (a : Byte) (ha : a.toNat < 8),
    ∃ t : State, exec (.jne a) s = .next t ∧
      (s.fl = 0x00 → t.pc.toNat = (s.reg ⟨a.toNat, ha⟩).toNat) ∧
      (s.fl ≠ 0x00 → t.pc = s.pc + 2) ∧
      KeepsRegs s t [] ∧ t.fl = s.fl ∧ t.events = s.events ∧ KeepsRunning s t ∧ KeepsMemory s t

/-- HLT (40_dispatch.md R110; code by D9, PC by D15): HALTED with HCAUSE 1 and HINFO 0, PC at the HLT byte. -/
def Obligations.HltHalts : Prop :=
  ∀ s : State, ∃ t : State, exec .hlt s = .next t ∧ t.run = .halted ∧ t.hcause = 1 ∧ t.hinfo = 0 ∧ t.pc = s.pc ∧
    KeepsRegs s t [] ∧ t.fl = s.fl ∧ t.events = s.events ∧ KeepsMemory s t

/-! ## Rules over several instructions -/

/-- 42_alu.md R134: the results of ADD and MUL are taken modulo 256, overflow is neither detected nor recorded, and the
increment and decrement of SP by PUSH, POP, CALL and RET wrap modulo 256. (POP R7, where SP is also the destination,
is in PopLoadsRegister.) -/
def Obligations.ArithmeticIsModulo256 : Prop :=
  (∀ (s : State) (a b : Byte) (ha : a.toNat < 8) (hb : b.toNat < 8),
    (∃ t : State, exec (.add a b) s = .next t ∧ t.fl = s.fl ∧ KeepsRunning s t ∧
      (t.reg ⟨a.toNat, ha⟩).toNat = ((s.reg ⟨a.toNat, ha⟩).toNat + (s.reg ⟨b.toNat, hb⟩).toNat) % 256) ∧
    (∃ t : State, exec (.mul a b) s = .next t ∧ t.fl = s.fl ∧ KeepsRunning s t ∧
      (t.reg ⟨a.toNat, ha⟩).toNat = ((s.reg ⟨a.toNat, ha⟩).toNat * (s.reg ⟨b.toNat, hb⟩).toNat) % 256)) ∧
  (∀ (s : State) (a : Byte), a.toNat < 8 →
    (∃ t : State, exec (.push a) s = .next t ∧ t.sp.toNat = (s.sp.toNat + 255) % 256) ∧
    (s.pc.toNat + 2 < 256 → ∃ t : State, exec (.call a) s = .next t ∧ t.sp.toNat = (s.sp.toNat + 255) % 256) ∧
    (a.toNat ≠ 7 → ∃ t : State, exec (.pop a) s = .next t ∧ t.sp.toNat = (s.sp.toNat + 1) % 256)) ∧
  (∀ s : State, ∃ t : State, exec .ret s = .next t ∧ t.sp.toNat = (s.sp.toNat + 1) % 256)

/-- 40_dispatch.md R105: CALL, RET and JMP always, and JEQ and JNE when they branch, write PC with their target and
receive no default advance. The target of CALL, JMP, JEQ and JNE is the register's value, of RET the popped byte.
(CALL R7 is in CallPushesAndJumps, CALL where the return address does not fit in CallReturnAddressMustFit.) -/
def Obligations.JumpsReplacePc : Prop :=
  (∀ (s : State) (a : Byte) (ha : a.toNat < 8),
    (a.toNat ≠ 7 → s.pc.toNat + 2 < 256 →
      ∃ t : State, exec (.call a) s = .next t ∧ t.pc.toNat = (s.reg ⟨a.toNat, ha⟩).toNat) ∧
    (∃ t : State, exec (.jmp a) s = .next t ∧ t.pc.toNat = (s.reg ⟨a.toNat, ha⟩).toNat) ∧
    (s.flagE = true → ∃ t : State, exec (.jeq a) s = .next t ∧ t.pc.toNat = (s.reg ⟨a.toNat, ha⟩).toNat) ∧
    (s.fl = 0 → ∃ t : State, exec (.jne a) s = .next t ∧ t.pc.toNat = (s.reg ⟨a.toNat, ha⟩).toNat)) ∧
  (∀ s : State, ∃ t : State, exec .ret s = .next t ∧ t.pc.toNat = (s.mem.read s.sp.toNat).toNat)

/-- 40_dispatch.md R104 for a RUNNING CORE: PC after an instruction that does not jump is PC plus its length as a
number, never reduced, so that it is 256 after one that ends at 255 (D2). -/
def Obligations.DefaultAdvanceNeverWraps : Prop :=
  ∀ (s : State) (i : Instr), s.run = .running → StandsAtPc s i → i.wf = true →
    i.opcode ∈ [Opcode.ldi, .prn, .add, .mul, .push, .pop, .cmp] →
    ∃ t : State, step s = .next t ∧ t.run = .running ∧ t.pc.toNat = s.pc.toNat + i.length

/-- 42_alu.md R130: the ALU adds or multiplies modulo 256 into regA from values read before the write and writes no
flag and nothing else, for exactly two opcodes; any other raises ALU_UNSUPPORTED with the opcode. -/
def Obligations.AluSupportsExactlyAddAndMul : Prop :=
  ∀ (op : Byte) (a b : RegIdx) (s : State),
    (op = 0xA0 → ∃ t : State, alu op a b s .next = .next t ∧
      (t.reg a).toNat = ((s.reg a).toNat + (s.reg b).toNat) % 256 ∧ KeepsRegs s t [a] ∧
      t = { s with regs := t.regs }) ∧
    (op = 0xA2 → ∃ t : State, alu op a b s .next = .next t ∧
      (t.reg a).toNat = ((s.reg a).toNat * (s.reg b).toNat) % 256 ∧ KeepsRegs s t [a] ∧
      t = { s with regs := t.regs }) ∧
    (op ≠ 0xA0 → op ≠ 0xA2 → ∀ k : State → Result, alu op a b s k = raise .aluUnsupported (zext9 op) s)

/-- 42_alu.md R133: the ALU raises ALU_UNSUPPORTED with the opcode for an opcode other than ADD and MUL, and no
instruction, and so no step of a RUNNING CORE, stops with it. -/
def Obligations.AluUnsupportedIsUnreachable : Prop :=
  (∀ (op : Byte) (a b : RegIdx) (s : State) (k : State → Result), op ∉ [Opcode.add.byte, Opcode.mul.byte] →
    alu op a b s k = raise .aluUnsupported (zext9 op) s) ∧
  (∀ (i : Instr) (s t : State), s.run = .running → exec i s = .next t → t.run = .halted →
    t.hcause ≠ HaltCause.aluUnsupported.code) ∧
  (∀ s t : State, s.run = .running → step s = .next t → t.run = .halted → t.hcause ≠ HaltCause.aluUnsupported.code)

/-- 10_state.md R27: no instruction but CMP writes FL, and a step that changes FL executed a byte 0xA7. -/
def Obligations.OnlyCmpWritesFlags : Prop :=
  (∀ (i : Instr) (s t : State), i.opcode ≠ .cmp → exec i s = .next t → t.fl = s.fl) ∧
  (∀ s t : State, step s = .next t → t.fl ≠ s.fl → s.mem.read s.pc.toNat = 0xA7)

/-- 20_memory.md R55, the writes of its table: only PUSH and CALL store, and only at the decremented SP. -/
def Obligations.OnlyPushAndCallStore : Prop :=
  ∀ s t : State, s.mem.wf → step s = .next t → ∀ x : Nat, t.mem.read x ≠ s.mem.read x →
    x = pushAddress s ∧ (s.mem.read s.pc.toNat = 0x45 ∨ s.mem.read s.pc.toNat = 0x50)

/-- 10_state.md R41 (coding by D12, D13): a step emits at most one event, appended; PRN events come from the byte 0x47,
DIAG events from 0xA0 and 0xA2 with that byte, UNKNOWN events from an unassigned byte with that byte. -/
def Obligations.StepEmitsAtMostOneEvent : Prop :=
  ∀ s t : State, step s = .next t →
    t.events = s.events ∨
    ∃ e : Event, t.events = s.events ++ [e] ∧
      ((s.mem.read s.pc.toNat = 0x47 ∧ ∃ r : RegIdx, e = .prn (s.reg r)) ∨
       (s.mem.read s.pc.toNat = 0xA0 ∧ e = .diag 0xA0) ∨
       (s.mem.read s.pc.toNat = 0xA2 ∧ e = .diag 0xA2) ∨
       (Unassigned (s.mem.read s.pc.toNat) ∧ e = .unknown (s.mem.read s.pc.toNat)))

/-- The coding of events (10_state.md R41; decision D13): kinds 0, 1 and 2, never 3, with 8 data bits. -/
def Obligations.EventCoding : Prop :=
  ∀ v : Byte, (Event.prn v).kind = 0 ∧ (Event.diag v).kind = 1 ∧ (Event.unknown v).kind = 2 ∧
    (Event.prn v).data = v ∧ (Event.diag v).data = v ∧ (Event.unknown v).data = v ∧ ∀ e : Event, e.kind ≠ 3

/-- 60_exceptions.md R183 (decision D8): a step that ends in ADDRESS_FAULT, REGISTER_FAULT or ALU_UNSUPPORTED wrote
the run state, HCAUSE and HINFO, and nothing else. -/
def Obligations.FaultsArePrecise : Prop :=
  ∀ s t : State, s.run = .running → step s = .next t → FaultStop t →
    t = { s with run := t.run, hcause := t.hcause, hinfo := t.hinfo }

/-- 70_reset_and_hazards.md R210 and R211 (decision D9): a RUNNING CORE completes normally only by a HLT byte, and PC
still points at it. -/
def Obligations.NormalCompletionOnlyByHlt : Prop :=
  ∀ s t : State, s.run = .running → step s = .next t → CompletedNormally t →
    s.mem.read s.pc.toNat = 0x01 ∧ t.pc = s.pc ∧ t.mem = s.mem ∧ t.hinfo = 0

/-! ## Sequences of the source's section 8 -/

/-- LDI followed by PRN on the same register emits the immediate (95_test_vectors.md S2.2). -/
def Obligations.LdiThenPrnEmitsImmediate : Prop :=
  ∀ (s : State) (a imm : Byte), a.toNat < 8 →
    ∃ t u : State, exec (.ldi a imm) s = .next t ∧ exec (.prn a) t = .next u ∧ u.events = s.events ++ [.prn imm]

/-- PUSH then POP on the same register restores every register, SP among them, for R7 too (95_test_vectors.md S2.3;
for R7 by D6). -/
def Obligations.PushThenPopRestores : Prop :=
  ∀ (s : State) (a : Byte), a.toNat < 8 → s.mem.wf →
    ∃ t u : State, exec (.push a) s = .next t ∧ exec (.pop a) t = .next u ∧ ∀ r : RegIdx, u.reg r = s.reg r

/-- CALL, then any instructions that leave SP and the return address in place, then RET: control goes to the address
after the CALL and SP is back (95_test_vectors.md S2.4). -/
def Obligations.CallThenRetReturns : Prop :=
  ∀ (s u : State) (a : Byte), a.toNat < 8 → s.mem.wf → s.pc.toNat + 2 < 256 →
    ∃ t : State, exec (.call a) s = .next t ∧
      (u.sp = t.sp → u.mem.read u.sp.toNat = t.mem.read u.sp.toNat →
        ∃ v : State, exec .ret u = .next v ∧ v.pc.toNat = s.pc.toNat + 2 ∧ v.sp = s.sp)

/-- 45_compare_branch.md R165: after CMP of a and b, JEQ branches exactly when a = b and JNE exactly when a < b. -/
def Obligations.CompareThenConditionalJump : Prop :=
  ∀ (s : State) (a b c : Byte) (ha : a.toNat < 8) (hb : b.toNat < 8) (hc : c.toNat < 8),
    ∃ t u v : State, exec (.cmp a b) s = .next t ∧ exec (.jeq c) t = .next u ∧ exec (.jne c) t = .next v ∧
      ((s.reg ⟨a.toNat, ha⟩).toNat = (s.reg ⟨b.toNat, hb⟩).toNat →
        u.pc.toNat = (s.reg ⟨c.toNat, hc⟩).toNat ∧ v.pc = t.pc + 2) ∧
      ((s.reg ⟨a.toNat, ha⟩).toNat > (s.reg ⟨b.toNat, hb⟩).toNat → u.pc = t.pc + 2 ∧ v.pc = t.pc + 2) ∧
      ((s.reg ⟨a.toNat, ha⟩).toNat < (s.reg ⟨b.toNat, hb⟩).toNat →
        u.pc = t.pc + 2 ∧ v.pc.toNat = (s.reg ⟨c.toNat, hc⟩).toNat)

/-- 20_memory.md R67 (decision D18; the R7 forms by D6): a byte that PUSH or CALL stores is what a fetch of its address
takes, as an opcode or as an operand, in the very next step and in every later RUNNING state whose memory still holds
it, with no fence or delay. It holds of every register, every stored byte and every address stored to; where that is one
of the instruction's own bytes, the instruction executes in its old form all the same. -/
def Obligations.PushedCodeIsFetched : Prop :=
  ∀ (s : State) (a : Byte) (ha : a.toNat < 8), s.run = .running → s.mem.wf →
    (StandsAtPc s (.push a) →
      ∃ (t : State) (b : Byte), step s = .next t ∧ t.run = .running ∧ t.pc.toNat = s.pc.toNat + 2 ∧
        b = (if a.toNat = 7 then s.sp - 1 else s.reg ⟨a.toNat, ha⟩) ∧ t.mem.read (pushAddress s) = b ∧
        FetchSeesByte t (pushAddress s) b ∧
        ∀ u : State, u.run = .running → u.mem.read (pushAddress s) = b → FetchSeesByte u (pushAddress s) b) ∧
    (StandsAtPc s (.call a) → s.pc.toNat + 2 < 256 →
      ∃ (t : State) (b : Byte), step s = .next t ∧ t.run = .running ∧
        t.pc.toNat = (if a.toNat = 7 then pushAddress s else (s.reg ⟨a.toNat, ha⟩).toNat) ∧
        b.toNat = s.pc.toNat + 2 ∧ t.mem.read (pushAddress s) = b ∧
        FetchSeesByte t (pushAddress s) b ∧
        ∀ u : State, u.run = .running → u.mem.read (pushAddress s) = b → FetchSeesByte u (pushAddress s) b)

/-! ## Memory -/

/-- 20_memory.md R64: a read returns the value of the latest earlier write to its address, or what memory held before
them where there is none. -/
def Obligations.ReadReturnsLatestWrite : Prop :=
  ∀ (m : Memory) (ws : List (Byte × Byte)) (x : Nat), m.wf →
    (ws.foldl (fun m w => m.write w.1.toNat w.2) m).read x =
      ((ws.reverse.find? fun w => w.1.toNat == x).map Prod.snd).getD (m.read x)

/-- 20_memory.md R52 to R54 (decision D1): a read gives the byte, a write changes that one cell and nothing else, and
either at an address of 256 or more raises ADDRESS_FAULT with the address. -/
def Obligations.MemoryPrimitives : Prop :=
  ∀ (s : State) (x : Nat) (v : Byte), s.mem.wf →
    (x < 256 → ∀ k : Byte → Result, memRead x s k = k (s.mem.read x)) ∧
    (x < 256 → ∃ t : State, memWrite x v s .next = .next t ∧ t.mem.read x = v ∧ KeepsMemoryBut s t x ∧
      t = { s with mem := t.mem }) ∧
    (256 ≤ x → (∀ k : Byte → Result, memRead x s k = .next { s with run := .halted, hcause := 3, hinfo := BitVec.ofNat 9 x }) ∧
      ∀ k : State → Result, memWrite x v s k = .next { s with run := .halted, hcause := 3, hinfo := BitVec.ofNat 9 x })

/-- Canonical memories that read alike at every address are the same data (the model's own form, log entry 7). -/
def Obligations.EqualReadsMeanEqualMemory : Prop :=
  ∀ m m' : Memory, m.wf → m'.wf → (∀ x : Nat, m.read x = m'.read x) → m = m'

/-! ## Invariants, reset and the host -/

/-- The state after reset and release (10_state.md R34, R35; FL by D4, the halt record by D9): R0 to R6 are 0, R7 is
0xF4, PC is 0, FL is 0, RUNNING, no halt record, every cell 0, no event. -/
def Obligations.ResetStateValues : Prop :=
  (∀ r : RegIdx, State.reset.reg r = if r = 7 then 0xF4 else 0x00) ∧ State.reset.pc = 0 ∧ State.reset.fl = 0 ∧
  State.reset.run = .running ∧ State.reset.hcause = 0 ∧ State.reset.hinfo = 0 ∧
  (∀ x : Nat, State.reset.mem.read x = 0x00) ∧ State.reset.events = []

/-- The state after reset meets the invariant. -/
def Obligations.ResetMeetsInvariant : Prop := State.reset.Inv

/-- Every step keeps the invariant: memory stays canonical and inside 0 to 255, FL stays one of 0, 1 and 2 (10_state.md
R26, D5), PC stays at most 256 (R24, D2), and HCAUSE and HINFO stay 0 until the CORE halts and then are a row of
60_exceptions.md R181 (D9), with 256 the only faulting address. -/
def Obligations.StepKeepsInvariant : Prop :=
  ∀ s t : State, s.Inv → step s = .next t → t.Inv

/-- Every admitted host action keeps the invariant (10_state.md R42, D17). -/
def Obligations.HostActionKeepsInvariant : Prop :=
  ∀ (s t : State) (a : HostAction), s.Inv → hostAct a s = .next t → t.Inv

/-- 70_reset_and_hazards.md R200 to R202 (decisions D4, D16, D17): from any state, a launch of an image of at most 256
bytes gives a RUNNING CORE with byte i of the image at address i, every other cell 0, and the rest as after reset. -/
def Obligations.LaunchLoadsImage : Prop :=
  ∀ (image : List Byte) (s : State), image.length ≤ 256 →
    ∃ t : State, launch image s = .next t ∧ t.run = .running ∧
      (∀ (k : Nat) (h : k < image.length), t.mem.read k = image[k]) ∧
      (∀ k : Nat, image.length ≤ k → t.mem.read k = 0x00) ∧
      (∀ r : RegIdx, t.reg r = if r = 7 then 0xF4 else 0x00) ∧
      t.pc = 0 ∧ t.fl = 0 ∧ t.hcause = 0 ∧ t.hinfo = 0 ∧ t.events = []

/-- Outside the loader contract (70_reset_and_hazards.md R203; decisions D17, D19; a release of a CORE that is not held
by log entry 3): an image over 256 bytes, and a load write or a release while the CORE is not held, are refused. -/
def Obligations.HostActionsOutsideContractRefused : Prop :=
  (∀ (image : List Byte) (s : State), 256 < image.length → launch image s = .refused .imageTooLong) ∧
  (∀ (s : State) (addr data : Byte), s.run ≠ .held →
    hostAct (.load addr data) s = .refused .loadWhileReleased ∧ hostAct .release s = .refused .releaseWhileReleased)

/-- 10_state.md R28 and 60_exceptions.md R186: nothing but a host reset leaves HALTED. The model's choices in it: a step
of a HALTED CORE answers the state unchanged (log entry 2), and no other host action is even admitted there, a release
among them, which is refused (log entry 3). -/
def Obligations.OnlyResetLeavesHalted : Prop :=
  ∀ s t : State, s.run = .halted →
    (step s = .next t → t.run = .halted) ∧
    (∀ a : HostAction, hostAct a s = .next t → a = .assertReset ∧ t = State.heldReset)
end

