-- ==== Sys2Proof/Laws/Decode.lean ====
section
/-! SUPPORT. The opcode table read both ways, and what decoding answers for each shape of input. -/

namespace Sys2Proof

theorem opcodeOf_byte (o : Opcode) : opcodeOf o.byte = some o := by cases o <;> decide

/-- A byte stands for an opcode only where all of its 8 bits match. -/
theorem byte_of_opcodeOf {b : Byte} {o : Opcode} (h : opcodeOf b = some o) : o.byte = b := by
  simpa using List.find?_some h

/-- Bits 7:6 of every opcode byte count its operands (30_encoding.md R88). -/
theorem opcode_length (o : Opcode) : o.length = 1 + opcodeFieldAA o.byte := by cases o <;> decide

theorem Opcode.mem_all (o : Opcode) : o ∈ Opcode.all := by cases o <;> decide

theorem opcodeOf_eq_none {b : Byte} : opcodeOf b = none ↔ ∀ o : Opcode, o.byte ≠ b := by
  simp only [opcodeOf, List.find?_eq_none, beq_iff_eq]
  exact ⟨fun h o => h o o.mem_all, fun h o _ => h o⟩

theorem decode_nil : decode [] = .error (.missingByte 0) := rfl

theorem decode_known {b : Byte} {o : Opcode} (h : opcodeOf b = some o) (rest : List Byte) :
    decode (b :: rest) = decodeOperands o rest := by simp only [decode, h]

theorem decode_unknown {b : Byte} (h : opcodeOf b = none) (rest : List Byte) :
    decode (b :: rest) = .error (.unknownOpcode b) := by simp only [decode, h]

/-- One operand byte is taken, or it is missing. -/
theorem decodeOneOperand_cases (make : Byte → Instr) (bs : List Byte) :
    (bs = [] ∧ decodeOneOperand make bs = .error (.missingByte 1)) ∨
    (∃ a rest, bs = a :: rest ∧ decodeOneOperand make bs = .ok (make a, rest)) := by
  rcases bs with _ | ⟨a, rest⟩
  · exact .inl ⟨rfl, rfl⟩
  · exact .inr ⟨a, rest, rfl, rfl⟩

/-- Two operand bytes are taken, or the first missing one is named. -/
theorem decodeTwoOperands_cases (make : Byte → Byte → Instr) (bs : List Byte) :
    (bs.length < 2 ∧ decodeTwoOperands make bs = .error (.missingByte (bs.length + 1))) ∨
    (∃ a b rest, bs = a :: b :: rest ∧ decodeTwoOperands make bs = .ok (make a b, rest)) := by
  rcases bs with _ | ⟨a, _ | ⟨b, rest⟩⟩
  · exact .inl ⟨by decide, rfl⟩
  · exact .inl ⟨by simp, rfl⟩
  · exact .inr ⟨a, b, rest, rfl, rfl⟩

/-- With its operand bytes present an opcode decodes to an instruction of that opcode; else the first missing byte is
named. -/
theorem decodeOperands_cases (o : Opcode) (bs : List Byte) :
    (bs.length < o.operandCount ∧ decodeOperands o bs = .error (.missingByte (bs.length + 1))) ∨
    (o.operandCount ≤ bs.length ∧ ∃ i : Instr, i.opcode = o ∧
      decodeOperands o bs = .ok (i, bs.drop o.operandCount)) := by
  rcases bs with _ | ⟨a, _ | ⟨b, rest⟩⟩ <;> cases o <;>
    simp [decodeOperands, decodeOneOperand, decodeTwoOperands, Opcode.operandCount, Instr.opcode]

theorem encode_head (i : Instr) : ∃ operands, encode i = i.opcode.byte :: operands := by
  cases i <;> exact ⟨_, rfl⟩

end Sys2Proof
end

