-- ==== Sys2Proof/Laws/Memory.lean ====
section
/-! SUPPORT. Memory: a read after a write, and the canonical form every operation keeps. -/

namespace Sys2Proof.Machine

namespace Memory

theorem read_consCell (c : Nat) (v : Byte) (m : Memory) (a : Nat) (fresh : a = c → m.read a = unlisted) :
    (consCell c v m).read a = if a = c then v else m.read a := by
  unfold consCell
  by_cases hv : v = unlisted
  · by_cases ha : a = c
    · simp only [hv, if_true, ha]
      exact ha ▸ fresh ha
    · simp [hv, ha]
  · simp [hv, read]

/-- An address below every listed one is not listed. -/
theorem read_below {m : Memory} {a : Nat} (h : ∀ c ∈ m, a < c.1) : m.read a = unlisted := by
  induction m with
  | nil => rfl
  | cons c m ih =>
    have hc : a < c.1 := h c (by simp)
    simp only [read, show ¬ a = c.1 by omega, if_false]
    exact ih fun d hd => h d (by simp [hd])

/-- A read after a write, in a memory whose addresses rise. -/
theorem read_write {m : Memory} (hm : m.Pairwise fun x y => x.1 < y.1) (a b : Nat) (v : Byte) :
    (m.write b v).read a = if a = b then v else m.read a := by
  induction m with
  | nil => exact read_consCell b v [] a fun _ => rfl
  | cons c m ih =>
    obtain ⟨hhead, htail⟩ := List.pairwise_cons.mp hm
    simp only [write]
    split
    · rename_i hlt
      refine read_consCell b v _ a fun hab => ?_
      subst hab
      refine read_below fun d hd => ?_
      rcases List.mem_cons.mp hd with rfl | hd
      · exact hlt
      · exact Nat.lt_trans hlt (hhead d hd)
    · split
      · rename_i hbc
        rw [read_consCell b v m a fun hab => read_below fun d hd => by
          rw [hab, hbc]; exact hhead d hd]
        by_cases hab : a = b
        · simp [hab]
        · simp [hab, read, show ¬ a = c.1 by omega]
      · simp only [read, ih htail]
        by_cases hac : a = c.1
        · simp [hac, show ¬ c.1 = b by omega]
        · simp [hac]

theorem mem_consCell {a : Nat} {v : Byte} {m : Memory} {c : Host.Cell} (h : c ∈ consCell a v m) :
    (c = (a, v) ∧ v ≠ unlisted) ∨ c ∈ m := by
  unfold consCell at h
  split at h
  · exact .inr h
  · rcases List.mem_cons.mp h with rfl | h
    · exact .inl ⟨rfl, ‹_›⟩
    · exact .inr h

theorem mem_write {m : Memory} {a : Nat} {v : Byte} {c : Host.Cell} (h : c ∈ m.write a v) :
    (c = (a, v) ∧ v ≠ unlisted) ∨ c ∈ m := by
  induction m with
  | nil => exact mem_consCell h
  | cons d m ih =>
    simp only [write] at h
    split at h
    · exact mem_consCell h
    · split at h
      · exact (mem_consCell h).imp_right fun hc => List.mem_cons_of_mem _ hc
      · rcases List.mem_cons.mp h with rfl | h
        · exact .inr (by simp)
        · exact (ih h).imp_right fun hc => List.mem_cons_of_mem _ hc

theorem pairwise_consCell {a : Nat} {v : Byte} {m : Memory} (hm : m.Pairwise fun x y => x.1 < y.1)
    (h : ∀ c ∈ m, a < c.1) : (consCell a v m).Pairwise fun x y => x.1 < y.1 := by
  unfold consCell
  split
  · exact hm
  · exact List.pairwise_cons.mpr ⟨h, hm⟩

theorem pairwise_write {m : Memory} (hm : m.Pairwise fun x y => x.1 < y.1) (a : Nat) (v : Byte) :
    (m.write a v).Pairwise fun x y => x.1 < y.1 := by
  induction m with
  | nil => exact pairwise_consCell hm (by simp)
  | cons d m ih =>
    obtain ⟨hhead, htail⟩ := List.pairwise_cons.mp hm
    simp only [write]
    split
    · rename_i hlt
      refine pairwise_consCell hm fun c hc => ?_
      rcases List.mem_cons.mp hc with rfl | hc
      · exact hlt
      · exact Nat.lt_trans hlt (hhead c hc)
    · split
      · rename_i had
        exact pairwise_consCell htail fun c hc => had ▸ hhead c hc
      · refine List.pairwise_cons.mpr ⟨fun c hc => ?_, ih htail⟩
        rcases mem_write hc with ⟨rfl, -⟩ | hc
        · show d.1 < a
          omega
        · exact hhead c hc

/-- A write inside memory keeps the canonical form. -/
theorem wf_write {m : Memory} (hm : m.wf) {a : Nat} (ha : a < 256) (v : Byte) : (m.write a v).wf := by
  refine ⟨pairwise_write hm.1 a v, fun c hc => ?_⟩
  rcases mem_write hc with ⟨rfl, hv⟩ | hc
  · exact ⟨ha, hv⟩
  · exact hm.2 c hc

theorem wf_writeBytes {m : Memory} (hm : m.wf) (a : Nat) (bs : List Byte) : (m.writeBytes a bs).wf := by
  induction bs generalizing m a with
  | nil => exact hm
  | cons b bs ih =>
    simp only [writeBytes]
    split
    · exact ih (wf_write hm ‹_› b) _
    · exact ih hm _

/-- A listed cell is read. -/
theorem read_of_mem {m : Memory} (hm : m.Pairwise fun x y => x.1 < y.1) {c : Host.Cell} (hc : c ∈ m) :
    m.read c.1 = c.2 := by
  induction m with
  | nil => cases hc
  | cons d m ih =>
    obtain ⟨hhead, htail⟩ := List.pairwise_cons.mp hm
    rcases List.mem_cons.mp hc with rfl | hc
    · simp [read]
    · have := hhead c hc
      simp only [read, show ¬ c.1 = d.1 by omega, if_false]
      exact ih htail hc

/-- A read after storing bytes that fit: the byte stored there, or what memory held. -/
theorem read_writeBytes (bs : List Byte) {m : Memory} (hm : m.wf) (n : Nat) (fit : n + bs.length ≤ 256) (x : Nat) :
    (m.writeBytes n bs).read x = if h : n ≤ x ∧ x - n < bs.length then bs[x - n]'h.2 else m.read x := by
  induction bs generalizing m n with
  | nil => simp [writeBytes]
  | cons b bs ih =>
    simp only [List.length_cons] at fit
    have hn : n < Config.memSize := by simp only [Config.memSize]; omega
    simp only [writeBytes, hn, if_true, List.length_cons]
    rw [ih (wf_write hm hn b) _ (by omega), read_write hm.1]
    by_cases hx : x = n
    · subst hx
      rw [dif_neg (by omega), if_pos rfl, dif_pos (by omega)]
      simp
    · by_cases hin : n + 1 ≤ x ∧ x - (n + 1) < bs.length
      · have hidx : x - n = (x - (n + 1)) + 1 := by omega
        rw [dif_pos hin, dif_pos (by omega)]
        simp [hidx]
      · rw [dif_neg hin, if_neg hx, dif_neg (by omega)]

@[simp] theorem wf_nil : Memory.wf [] := by simp [wf]

end Memory

end Sys2Proof.Machine
end

