-- ==== Sys2Proof/Laws/State.lean ====
section
/-! SUPPORT. What each update of the state does to each field, and to a register read. -/

namespace Sys2Proof.Machine

variable (s : State)

@[simp] theorem State.setReg_regs (i : RegIdx) (v : Byte) : (s.setReg i v).regs = s.regs.set i.val v := rfl
@[simp] theorem State.setReg_pc (i : RegIdx) (v : Byte) : (s.setReg i v).pc = s.pc := rfl
@[simp] theorem State.setReg_fl (i : RegIdx) (v : Byte) : (s.setReg i v).fl = s.fl := rfl
@[simp] theorem State.setReg_run (i : RegIdx) (v : Byte) : (s.setReg i v).run = s.run := rfl
@[simp] theorem State.setReg_hcause (i : RegIdx) (v : Byte) : (s.setReg i v).hcause = s.hcause := rfl
@[simp] theorem State.setReg_hinfo (i : RegIdx) (v : Byte) : (s.setReg i v).hinfo = s.hinfo := rfl
@[simp] theorem State.setReg_mem (i : RegIdx) (v : Byte) : (s.setReg i v).mem = s.mem := rfl
@[simp] theorem State.setReg_events (i : RegIdx) (v : Byte) : (s.setReg i v).events = s.events := rfl

@[simp] theorem State.setPc_regs (p : PcWord) : (s.setPc p).regs = s.regs := rfl
@[simp] theorem State.setPc_pc (p : PcWord) : (s.setPc p).pc = p := rfl
@[simp] theorem State.setPc_fl (p : PcWord) : (s.setPc p).fl = s.fl := rfl
@[simp] theorem State.setPc_run (p : PcWord) : (s.setPc p).run = s.run := rfl
@[simp] theorem State.setPc_hcause (p : PcWord) : (s.setPc p).hcause = s.hcause := rfl
@[simp] theorem State.setPc_hinfo (p : PcWord) : (s.setPc p).hinfo = s.hinfo := rfl
@[simp] theorem State.setPc_mem (p : PcWord) : (s.setPc p).mem = s.mem := rfl
@[simp] theorem State.setPc_events (p : PcWord) : (s.setPc p).events = s.events := rfl

@[simp] theorem State.advance_regs (n : Nat) : (s.advance n).regs = s.regs := rfl
@[simp] theorem State.advance_pc (n : Nat) : (s.advance n).pc = s.pc + BitVec.ofNat 9 n := rfl
@[simp] theorem State.advance_fl (n : Nat) : (s.advance n).fl = s.fl := rfl
@[simp] theorem State.advance_run (n : Nat) : (s.advance n).run = s.run := rfl
@[simp] theorem State.advance_hcause (n : Nat) : (s.advance n).hcause = s.hcause := rfl
@[simp] theorem State.advance_hinfo (n : Nat) : (s.advance n).hinfo = s.hinfo := rfl
@[simp] theorem State.advance_mem (n : Nat) : (s.advance n).mem = s.mem := rfl
@[simp] theorem State.advance_events (n : Nat) : (s.advance n).events = s.events := rfl

@[simp] theorem State.setFl_regs (v : Byte) : (s.setFl v).regs = s.regs := rfl
@[simp] theorem State.setFl_pc (v : Byte) : (s.setFl v).pc = s.pc := rfl
@[simp] theorem State.setFl_fl (v : Byte) : (s.setFl v).fl = v := rfl
@[simp] theorem State.setFl_run (v : Byte) : (s.setFl v).run = s.run := rfl
@[simp] theorem State.setFl_hcause (v : Byte) : (s.setFl v).hcause = s.hcause := rfl
@[simp] theorem State.setFl_hinfo (v : Byte) : (s.setFl v).hinfo = s.hinfo := rfl
@[simp] theorem State.setFl_mem (v : Byte) : (s.setFl v).mem = s.mem := rfl
@[simp] theorem State.setFl_events (v : Byte) : (s.setFl v).events = s.events := rfl

@[simp] theorem State.setMem_regs (m : Memory) : (s.setMem m).regs = s.regs := rfl
@[simp] theorem State.setMem_pc (m : Memory) : (s.setMem m).pc = s.pc := rfl
@[simp] theorem State.setMem_fl (m : Memory) : (s.setMem m).fl = s.fl := rfl
@[simp] theorem State.setMem_run (m : Memory) : (s.setMem m).run = s.run := rfl
@[simp] theorem State.setMem_hcause (m : Memory) : (s.setMem m).hcause = s.hcause := rfl
@[simp] theorem State.setMem_hinfo (m : Memory) : (s.setMem m).hinfo = s.hinfo := rfl
@[simp] theorem State.setMem_mem (m : Memory) : (s.setMem m).mem = m := rfl
@[simp] theorem State.setMem_events (m : Memory) : (s.setMem m).events = s.events := rfl

@[simp] theorem State.emit_regs (e : Event) : (s.emit e).regs = s.regs := rfl
@[simp] theorem State.emit_pc (e : Event) : (s.emit e).pc = s.pc := rfl
@[simp] theorem State.emit_fl (e : Event) : (s.emit e).fl = s.fl := rfl
@[simp] theorem State.emit_run (e : Event) : (s.emit e).run = s.run := rfl
@[simp] theorem State.emit_hcause (e : Event) : (s.emit e).hcause = s.hcause := rfl
@[simp] theorem State.emit_hinfo (e : Event) : (s.emit e).hinfo = s.hinfo := rfl
@[simp] theorem State.emit_mem (e : Event) : (s.emit e).mem = s.mem := rfl
@[simp] theorem State.emit_events (e : Event) : (s.emit e).events = s.events ++ [e] := rfl

@[simp] theorem State.decSp_pc : (s.decSp).pc = s.pc := rfl
@[simp] theorem State.decSp_fl : (s.decSp).fl = s.fl := rfl
@[simp] theorem State.decSp_run : (s.decSp).run = s.run := rfl
@[simp] theorem State.decSp_hcause : (s.decSp).hcause = s.hcause := rfl
@[simp] theorem State.decSp_hinfo : (s.decSp).hinfo = s.hinfo := rfl
@[simp] theorem State.decSp_mem : (s.decSp).mem = s.mem := rfl
@[simp] theorem State.decSp_events : (s.decSp).events = s.events := rfl

@[simp] theorem State.incSp_pc : (s.incSp).pc = s.pc := rfl
@[simp] theorem State.incSp_fl : (s.incSp).fl = s.fl := rfl
@[simp] theorem State.incSp_run : (s.incSp).run = s.run := rfl
@[simp] theorem State.incSp_hcause : (s.incSp).hcause = s.hcause := rfl
@[simp] theorem State.incSp_hinfo : (s.incSp).hinfo = s.hinfo := rfl
@[simp] theorem State.incSp_mem : (s.incSp).mem = s.mem := rfl
@[simp] theorem State.incSp_events : (s.incSp).events = s.events := rfl

@[simp] theorem State.stop_regs (c : HaltCause) (x : BitVec 9) : (s.stop c x).regs = s.regs := rfl
@[simp] theorem State.stop_pc (c : HaltCause) (x : BitVec 9) : (s.stop c x).pc = s.pc := rfl
@[simp] theorem State.stop_fl (c : HaltCause) (x : BitVec 9) : (s.stop c x).fl = s.fl := rfl
@[simp] theorem State.stop_run (c : HaltCause) (x : BitVec 9) : (s.stop c x).run = .halted := rfl
@[simp] theorem State.stop_hcause (c : HaltCause) (x : BitVec 9) : (s.stop c x).hcause = c.code := rfl
@[simp] theorem State.stop_hinfo (c : HaltCause) (x : BitVec 9) : (s.stop c x).hinfo = x := rfl
@[simp] theorem State.stop_mem (c : HaltCause) (x : BitVec 9) : (s.stop c x).mem = s.mem := rfl
@[simp] theorem State.stop_events (c : HaltCause) (x : BitVec 9) : (s.stop c x).events = s.events := rfl

/-- A register reads what was last written to it, and keeps its value when another is written. -/
theorem State.reg_setReg (i j : RegIdx) (v : Byte) :
    (s.setReg i v).reg j = if j = i then v else s.reg j := by
  simp only [State.reg, State.setReg, Vector.getElem_set]
  by_cases h : j = i
  · simp [h]
  · simp [h, show ¬ i.val = j.val from fun e => h (Fin.ext e.symm)]

@[simp] theorem State.reg_setReg_same (i : RegIdx) (v : Byte) : (s.setReg i v).reg i = v := by
  simp [State.reg_setReg]

theorem State.reg_setReg_other {i j : RegIdx} (v : Byte) (h : j ≠ i) : (s.setReg i v).reg j = s.reg j := by
  simp [State.reg_setReg, h]

@[simp] theorem State.reg_setPc (p : PcWord) (i : RegIdx) : (s.setPc p).reg i = s.reg i := rfl
@[simp] theorem State.reg_advance (n : Nat) (i : RegIdx) : (s.advance n).reg i = s.reg i := rfl
@[simp] theorem State.reg_setFl (v : Byte) (i : RegIdx) : (s.setFl v).reg i = s.reg i := rfl
@[simp] theorem State.reg_setMem (m : Memory) (i : RegIdx) : (s.setMem m).reg i = s.reg i := rfl
@[simp] theorem State.reg_emit (e : Event) (i : RegIdx) : (s.emit e).reg i = s.reg i := rfl
@[simp] theorem State.reg_stop (c : HaltCause) (x : BitVec 9) (i : RegIdx) : (s.stop c x).reg i = s.reg i := rfl

theorem State.reg_decSp (i : RegIdx) : s.decSp.reg i = if i = 7 then s.reg 7 - 1 else s.reg i :=
  s.reg_setReg 7 i _

theorem State.reg_incSp (i : RegIdx) : s.incSp.reg i = if i = 7 then s.reg 7 + 1 else s.reg i :=
  s.reg_setReg 7 i _

theorem State.sp_eq : s.sp = s.reg 7 := rfl

end Sys2Proof.Machine
end

