-- ==== Sys2Proof/Laws/Ops.lean ====
section
/-! SUPPORT. One lemma for each shared operation, saying once what it can do. -/

namespace Sys2Proof.Machine

@[simp] theorem zext9_toNat (b : Byte) : (zext9 b).toNat = b.toNat := by
  simp only [zext9, BitVec.toNat_setWidth]
  exact Nat.mod_eq_of_lt (by omega)

theorem andThen_next (s : State) (k : State → Result) : Result.andThen (.next s) k = k s := rfl

theorem withReg_valid {r : Byte} (h : r.toNat < 8) (s : State) (k : RegIdx → Result) :
    withReg r s k = k ⟨r.toNat, h⟩ := dif_pos h

theorem withReg_invalid {r : Byte} (h : 8 ≤ r.toNat) (s : State) (k : RegIdx → Result) :
    withReg r s k = .next (s.stop .registerFault (zext9 r)) := dif_neg (by omega)

/-- The check of a register operand goes on with the register, or takes the stop. -/
theorem withReg_next {r : Byte} {s t : State} {k : RegIdx → Result} (h : withReg r s k = .next t) :
    (∃ hr : r.toNat < 8, k ⟨r.toNat, hr⟩ = .next t) ∨ (8 ≤ r.toNat ∧ t = s.stop .registerFault (zext9 r)) := by
  by_cases hr : r.toNat < 8
  · exact .inl ⟨hr, withReg_valid hr s k ▸ h⟩
  · refine .inr ⟨by omega, ?_⟩
    rw [withReg_invalid (by omega)] at h
    cases h
    rfl

/-- A read at a byte's address never raises (20_memory.md R56). -/
theorem memRead_byte (b : Byte) (s : State) (k : Byte → Result) :
    memRead b.toNat s k = k (s.mem.read b.toNat) := if_neg (by simp [Config.memSize]; omega)

/-- A write at a byte's address never raises (20_memory.md R56). -/
theorem memWrite_byte (b v : Byte) (s : State) (k : State → Result) :
    memWrite b.toNat v s k = k (s.setMem (s.mem.write b.toNat v)) := if_neg (by simp [Config.memSize]; omega)

@[simp] theorem sp_decSp (s : State) : s.decSp.sp = s.sp - 1 := by simp [State.sp, State.decSp]

@[simp] theorem sp_incSp (s : State) : s.incSp.sp = s.sp + 1 := by simp [State.sp, State.incSp]

/-- The PUSH mechanics always go on, with SP decremented and one cell stored. -/
theorem pushByte_eq (v : State → Byte) (s : State) (k : State → Result) :
    pushByte v s k = k (s.decSp.setMem (s.mem.write (s.sp - 1).toNat (v s.decSp))) := by
  rw [pushByte, memWrite_byte, sp_decSp, State.decSp_mem]

theorem alu_add (a b : RegIdx) (s : State) (k : State → Result) :
    alu Opcode.add.byte a b s k = k (s.setReg a (BitVec.ofNat 8 ((s.reg a).toNat + (s.reg b).toNat))) := by
  simp [alu, aluResult]

theorem alu_mul (a b : RegIdx) (s : State) (k : State → Result) :
    alu Opcode.mul.byte a b s k = k (s.setReg a (BitVec.ofNat 8 ((s.reg a).toNat * (s.reg b).toNat))) := by
  simp [alu, aluResult, show ¬ Opcode.mul.byte = Opcode.add.byte by decide]

/-- Any other opcode byte takes the ALU's stop (42_alu.md R133). -/
theorem alu_other {op : Byte} (hadd : op ≠ Opcode.add.byte) (hmul : op ≠ Opcode.mul.byte) (a b : RegIdx) (s : State)
    (k : State → Result) : alu op a b s k = raise .aluUnsupported (zext9 op) s := by
  unfold alu aluResult
  rw [if_neg hadd, if_neg hmul]

/-- The decrement of SP, as a number. -/
theorem toNat_dec (b : Byte) : (b - 1).toNat = (b.toNat + 255) % 256 := by
  simp [BitVec.toNat_sub]
  omega

/-- The increment of SP, as a number. -/
theorem toNat_inc (b : Byte) : (b + 1).toNat = (b.toNat + 1) % 256 := by
  simp [BitVec.toNat_add]

/-- FL after a comparison is one of its three legal values. -/
theorem compareFlags_legal (a b : Byte) :
    compareFlags a b = 0x00 ∨ compareFlags a b = 0x01 ∨ compareFlags a b = 0x02 := by
  unfold compareFlags
  split
  · simp
  · split <;> simp

end Sys2Proof.Machine
end

