-- ==== Sys2Proof/Laws/Exec.lean ====
section
/-! SUPPORT. One lemma for each instruction: the next state it answers when its register operands name registers; and
everything an execution can do. -/

namespace Sys2Proof.Machine

variable {a b : Byte} (s : State)

theorem exec_ldi (ha : a.toNat < 8) (imm : Byte) :
    exec (.ldi a imm) s = .next ((s.setReg ⟨a.toNat, ha⟩ imm).advance 3) := by
  simp only [exec, execLdi, withReg_valid ha]

theorem exec_prn (ha : a.toNat < 8) :
    exec (.prn a) s = .next ((s.emit (.prn (s.reg ⟨a.toNat, ha⟩))).advance 2) := by
  simp only [exec, execPrn, withReg_valid ha]

theorem exec_hlt : exec .hlt s = .next (s.stop .hlt 0) := rfl

theorem exec_add (ha : a.toNat < 8) (hb : b.toNat < 8) :
    exec (.add a b) s = .next (((s.setReg ⟨a.toNat, ha⟩
      (BitVec.ofNat 8 ((s.reg ⟨a.toNat, ha⟩).toNat + (s.reg ⟨b.toNat, hb⟩).toNat))).emit (.diag 0xA0)).advance 3) := by
  simp only [exec, execAdd, aluInstr, withReg_valid ha, withReg_valid hb, alu_add]
  rfl

theorem exec_mul (ha : a.toNat < 8) (hb : b.toNat < 8) :
    exec (.mul a b) s = .next (((s.setReg ⟨a.toNat, ha⟩
      (BitVec.ofNat 8 ((s.reg ⟨a.toNat, ha⟩).toNat * (s.reg ⟨b.toNat, hb⟩).toNat))).emit (.diag 0xA2)).advance 3) := by
  simp only [exec, execMul, aluInstr, withReg_valid ha, withReg_valid hb, alu_mul]
  rfl

theorem exec_push (ha : a.toNat < 8) :
    exec (.push a) s = .next ((s.decSp.setMem
      (s.mem.write (s.sp - 1).toNat (s.decSp.reg ⟨a.toNat, ha⟩))).advance 2) := by
  simp only [exec, execPush, withReg_valid ha, pushByte_eq]

theorem exec_pop (ha : a.toNat < 8) :
    exec (.pop a) s = .next ((s.setReg ⟨a.toNat, ha⟩ (s.mem.read s.sp.toNat)).incSp.advance 2) := by
  simp only [exec, execPop, withReg_valid ha, memRead_byte]

theorem exec_call (ha : a.toNat < 8) (hp : s.pc.toNat + 2 < 256) :
    exec (.call a) s = .next ((s.decSp.setMem
      (s.mem.write (s.sp - 1).toNat (BitVec.ofNat 8 (s.pc.toNat + 2)))).setPc
        (zext9 (s.decSp.reg ⟨a.toNat, ha⟩))) := by
  simp only [exec, execCall, withReg_valid ha, pushByte_eq]
  exact if_neg (by simp only [Config.memSize]; omega)

/-- CALL whose return address does not fit a byte (44_subroutine.md R150, D7). -/
theorem exec_call_overflow (ha : a.toNat < 8) (hp : 256 ≤ s.pc.toNat + 2) :
    exec (.call a) s = .next (s.stop .addressFault (BitVec.ofNat 9 (s.pc.toNat + 2))) := by
  simp only [exec, execCall, withReg_valid ha]
  exact if_pos hp

theorem exec_ret : exec .ret s = .next (s.incSp.setPc (zext9 (s.mem.read s.sp.toNat))) := by
  simp only [exec, execRet, memRead_byte]

theorem exec_cmp (ha : a.toNat < 8) (hb : b.toNat < 8) :
    exec (.cmp a b) s = .next ((s.setFl
      (compareFlags (s.reg ⟨a.toNat, ha⟩) (s.reg ⟨b.toNat, hb⟩))).advance 3) := by
  simp only [exec, execCmp, withReg_valid ha, withReg_valid hb]

theorem exec_jmp (ha : a.toNat < 8) : exec (.jmp a) s = .next (s.setPc (zext9 (s.reg ⟨a.toNat, ha⟩))) := by
  simp only [exec, execJmp, jumpIf, withReg_valid ha, if_true]

theorem exec_jeq (ha : a.toNat < 8) :
    exec (.jeq a) s = .next (if s.flagE then s.setPc (zext9 (s.reg ⟨a.toNat, ha⟩)) else s.advance 2) := by
  simp only [exec, execJeq, jumpIf, withReg_valid ha]

theorem exec_jne (ha : a.toNat < 8) :
    exec (.jne a) s = .next (if s.fl == 0x00 then s.setPc (zext9 (s.reg ⟨a.toNat, ha⟩)) else s.advance 2) := by
  simp only [exec, execJne, jumpIf, withReg_valid ha]

/-- The first register operand that names no register stops the instruction (40_dispatch.md R107). -/
theorem exec_invalid (i : Instr) (r : Byte) (h : i.regOperands.find? (fun x => !validReg x) = some r) :
    exec i s = .next (s.stop .registerFault (zext9 r)) := by
  have one : ∀ x : Byte, validReg x = false → 8 ≤ x.toNat := fun x hx => by
    simpa [validReg, Config.numRegs] using hx
  have ok : ∀ x : Byte, validReg x = true → x.toNat < 8 := fun x hx => by
    simpa [validReg, Config.numRegs] using hx
  cases i
  case hlt => simp [Instr.regOperands] at h
  case ret => simp [Instr.regOperands] at h
  case add x y =>
    cases hx : validReg x <;> cases hy : validReg y <;> simp [Instr.regOperands, hx, hy] at h <;> subst h <;>
      simp only [exec, execAdd, aluInstr]
    · exact withReg_invalid (one _ hx) _ _
    · exact withReg_invalid (one _ hx) _ _
    · rw [withReg_valid (ok _ hx), withReg_invalid (one _ hy)]
  case mul x y =>
    cases hx : validReg x <;> cases hy : validReg y <;> simp [Instr.regOperands, hx, hy] at h <;> subst h <;>
      simp only [exec, execMul, aluInstr]
    · exact withReg_invalid (one _ hx) _ _
    · exact withReg_invalid (one _ hx) _ _
    · rw [withReg_valid (ok _ hx), withReg_invalid (one _ hy)]
  case cmp x y =>
    cases hx : validReg x <;> cases hy : validReg y <;> simp [Instr.regOperands, hx, hy] at h <;> subst h <;>
      simp only [exec, execCmp]
    · exact withReg_invalid (one _ hx) _ _
    · exact withReg_invalid (one _ hx) _ _
    · rw [withReg_valid (ok _ hx), withReg_invalid (one _ hy)]
  case ldi x imm =>
    simp only [Instr.regOperands, List.find?_cons, List.find?_nil] at h
    split at h
    · rename_i hx
      cases h
      simp only [exec, execLdi, withReg_invalid (one r (by simpa using hx))]
    · cases h
  all_goals
    rename_i x
    simp only [Instr.regOperands, List.find?_cons, List.find?_nil] at h
    split at h
    · rename_i hx
      cases h
      simp only [exec, execPrn, execPush, execPop, execCall, execJmp, execJeq, execJne, jumpIf,
        withReg_invalid (one r (by simpa using hx))]
    · cases h

/-- Everything an execution can do to the parts of the state that are not general registers. -/
inductive ExecEffect (i : Instr) (s t : State) : Prop where
  /-- a register operand names no register -/
  | registerFault (r : Byte) (hr : 8 ≤ r.toNat) (ht : t = s.stop .registerFault (zext9 r))
  /-- the return address of CALL does not fit a byte -/
  | returnFault (hi : i.opcode = .call) (hp : 256 ≤ s.pc.toNat + 2)
      (ht : t = s.stop .addressFault (BitVec.ofNat 9 (s.pc.toNat + 2)))
  /-- HLT -/
  | halt (hi : i = .hlt) (ht : t = s.stop .hlt 0)
  /-- the instruction completes and the CORE goes on -/
  | completes (hrun : t.run = s.run) (hcause : t.hcause = s.hcause) (hinfo : t.hinfo = s.hinfo)
      (hfl : t.fl = s.fl ∨ (i.opcode = .cmp ∧ FlLegal t))
      (hmem : t.mem = s.mem ∨
        ((i.opcode = .push ∨ i.opcode = .call) ∧ ∃ v, t.mem = s.mem.write s.decSp.sp.toNat v))
      (hevents : t.events = s.events ∨ (i.opcode = .prn ∧ ∃ r, t.events = s.events ++ [.prn (s.reg r)]) ∨
        (i.opcode = .add ∧ t.events = s.events ++ [.diag 0xA0]) ∨
        (i.opcode = .mul ∧ t.events = s.events ++ [.diag 0xA2]))
      (hpc : t.pc.toNat < 256 ∨ t.pc = s.pc + BitVec.ofNat 9 i.length)

theorem zext9_lt (b : Byte) : (zext9 b).toNat < 256 := by
  rw [zext9_toNat]
  omega

/-- Every next state of an execution is one of these. -/
theorem exec_cases {i : Instr} {s t : State} (h : exec i s = .next t) : ExecEffect i s t := by
  rcases hf : i.regOperands.find? (fun x => !validReg x) with _ | r
  · have hv : ∀ x ∈ i.regOperands, x.toNat < 8 := fun x hx => by
      simpa [validReg, Config.numRegs] using List.find?_eq_none.mp hf x hx
    cases i <;> simp only [Instr.regOperands, List.mem_cons, List.not_mem_nil, or_false, forall_eq_or_imp, forall_eq] at hv
    case ldi a imm =>
      rw [exec_ldi s hv imm] at h
      cases h
      exact .completes rfl rfl rfl (.inl rfl) (.inl rfl) (.inl rfl) (.inr rfl)
    case prn a =>
      rw [exec_prn s hv] at h
      cases h
      exact .completes rfl rfl rfl (.inl rfl) (.inl rfl) (.inr (.inl ⟨rfl, _, rfl⟩)) (.inr rfl)
    case hlt =>
      cases h
      exact .halt rfl rfl
    case add a b =>
      rw [exec_add s hv.1 hv.2] at h
      cases h
      exact .completes rfl rfl rfl (.inl rfl) (.inl rfl) (.inr (.inr (.inl ⟨rfl, rfl⟩))) (.inr rfl)
    case mul a b =>
      rw [exec_mul s hv.1 hv.2] at h
      cases h
      exact .completes rfl rfl rfl (.inl rfl) (.inl rfl) (.inr (.inr (.inr ⟨rfl, rfl⟩))) (.inr rfl)
    case push a =>
      rw [exec_push s hv] at h
      cases h
      exact .completes rfl rfl rfl (.inl rfl) (.inr ⟨.inl rfl, _, by rw [sp_decSp]; rfl⟩) (.inl rfl) (.inr rfl)
    case pop a =>
      rw [exec_pop s hv] at h
      cases h
      exact .completes rfl rfl rfl (.inl rfl) (.inl rfl) (.inl rfl) (.inr rfl)
    case call a =>
      rcases Nat.lt_or_ge (s.pc.toNat + 2) 256 with hp | hp
      · rw [exec_call s hv hp] at h
        cases h
        exact .completes rfl rfl rfl (.inl rfl) (.inr ⟨.inr rfl, _, by rw [sp_decSp]; rfl⟩) (.inl rfl)
          (.inl (zext9_lt _))
      · rw [exec_call_overflow s hv hp] at h
        cases h
        exact .returnFault rfl hp rfl
    case ret =>
      rw [exec_ret s] at h
      cases h
      exact .completes rfl rfl rfl (.inl rfl) (.inl rfl) (.inl rfl) (.inl (zext9_lt _))
    case cmp a b =>
      rw [exec_cmp s hv.1 hv.2] at h
      cases h
      exact .completes rfl rfl rfl (.inr ⟨rfl, compareFlags_legal _ _⟩) (.inl rfl) (.inl rfl) (.inr rfl)
    case jmp a =>
      rw [exec_jmp s hv] at h
      cases h
      exact .completes rfl rfl rfl (.inl rfl) (.inl rfl) (.inl rfl) (.inl (zext9_lt _))
    case jeq a =>
      rw [exec_jeq s hv] at h
      cases h
      cases s.flagE
      · exact .completes rfl rfl rfl (.inl rfl) (.inl rfl) (.inl rfl) (.inr rfl)
      · exact .completes rfl rfl rfl (.inl rfl) (.inl rfl) (.inl rfl) (.inl (zext9_lt _))
    case jne a =>
      rw [exec_jne s hv] at h
      cases h
      cases s.fl == 0x00
      · exact .completes rfl rfl rfl (.inl rfl) (.inl rfl) (.inl rfl) (.inr rfl)
      · exact .completes rfl rfl rfl (.inl rfl) (.inl rfl) (.inl rfl) (.inl (zext9_lt _))
  · rw [exec_invalid s i r hf] at h
    cases h
    exact .registerFault r (by simpa [validReg, Config.numRegs] using List.find?_some hf) rfl

end Sys2Proof.Machine
end

