-- ==== Sys2Proof/Laws/HostPort.lean ====
section
/-! SUPPORT. The host's actions while the CORE is held in reset. -/

namespace Sys2Proof.Machine

theorem hostAct_load_held {s : State} (h : s.run = .held) (addr data : Byte) :
    hostAct (.load addr data) s = .next (s.setMem (s.mem.write addr.toNat data)) := if_pos h

theorem hostAct_release_held {s : State} (h : s.run = .held) :
    hostAct .release s = .next { s with run := .running } := if_pos h

/-- Loading bytes that fit is writing them at ascending addresses. -/
theorem loadFrom_eq (bs : List Byte) (n : Nat) (s : State) (h : s.run = .held) (hn : n + bs.length ≤ 256) :
    loadFrom n bs s = .next (s.setMem (s.mem.writeBytes n bs)) := by
  induction bs generalizing n s with
  | nil => rfl
  | cons b bs ih =>
    simp only [List.length_cons] at hn
    have hb : (BitVec.ofNat 8 n).toNat = n := by simp; omega
    rw [loadFrom, hostAct_load_held h, hb, Result.andThen, ih _ _ (by exact h) (by omega)]
    simp [Memory.writeBytes, Config.memSize, show n < 256 by omega, State.setMem]

end Sys2Proof.Machine
end

