-- ==== Sys2Proof/Laws/PerInstr.lean ====
section
/-! SUPPORT. Statements about every instruction as syntax, one lemma for each constructor. -/

namespace Sys2Proof.Laws.EncodedLength

/-- An instruction's encoding has its table length, and bits 7:6 of its first byte count the operand bytes
(spec 30_encoding.md R80, R88). -/
def Statement (i : Instr) : Prop :=
  (encode i).length = i.length ∧ i.length = 1 + opcodeFieldAA i.opcode.byte

theorem ldi (regA imm : Byte) : Statement (.ldi regA imm) := ⟨rfl, opcode_length _⟩
theorem prn (regA : Byte) : Statement (.prn regA) := ⟨rfl, opcode_length _⟩
theorem hlt : Statement .hlt := ⟨rfl, opcode_length _⟩
theorem add (regA regB : Byte) : Statement (.add regA regB) := ⟨rfl, opcode_length _⟩
theorem mul (regA regB : Byte) : Statement (.mul regA regB) := ⟨rfl, opcode_length _⟩
theorem push (regA : Byte) : Statement (.push regA) := ⟨rfl, opcode_length _⟩
theorem pop (regA : Byte) : Statement (.pop regA) := ⟨rfl, opcode_length _⟩
theorem call (regA : Byte) : Statement (.call regA) := ⟨rfl, opcode_length _⟩
theorem ret : Statement .ret := ⟨rfl, opcode_length _⟩
theorem cmp (regA regB : Byte) : Statement (.cmp regA regB) := ⟨rfl, opcode_length _⟩
theorem jmp (regA : Byte) : Statement (.jmp regA) := ⟨rfl, opcode_length _⟩
theorem jeq (regA : Byte) : Statement (.jeq regA) := ⟨rfl, opcode_length _⟩
theorem jne (regA : Byte) : Statement (.jne regA) := ⟨rfl, opcode_length _⟩

end Sys2Proof.Laws.EncodedLength
end

