-- ==== Sys2Proof/Laws/Step.lean ====
section
/-! SUPPORT. What the bytes at PC are, and everything a step can do. -/

namespace Sys2Proof.Machine

theorem codeBytes_length (s : State) : s.codeBytes.length = min 3 (256 - s.pc.toNat) := by
  simp [State.codeBytes, Config.memSize]

/-- The byte at PC comes first. -/
theorem codeBytes_cons (s : State) (h : s.pc.toNat < 256) :
    s.codeBytes = s.mem.read s.pc.toNat ::
      (List.range' (s.pc.toNat + 1) (min 2 (255 - s.pc.toNat))).map s.mem.read := by
  have : min 3 (Config.memSize - s.pc.toNat) = min 2 (255 - s.pc.toNat) + 1 := by simp only [Config.memSize]; omega
  simp only [State.codeBytes, this, List.range'_succ, List.map_cons]

theorem codeBytes_nil (s : State) (h : 256 ≤ s.pc.toNat) : s.codeBytes = [] := by
  have : min 3 (Config.memSize - s.pc.toNat) = 0 := by simp only [Config.memSize]; omega
  simp [State.codeBytes, this]

/-- The byte at offset `k` is the memory cell at PC + k. -/
theorem codeBytes_getElem (s : State) (k : Nat) (h : k < s.codeBytes.length) :
    s.codeBytes[k] = s.mem.read (s.pc.toNat + k) := by
  simp [State.codeBytes]

/-- Where given bytes stand at PC, the bytes fetched begin with them. -/
theorem codeBytes_of_bytes {s : State} {bs : List Byte} (hbs : bs.length ≤ 3) (fit : s.pc.toNat + bs.length ≤ 256)
    (h : ∀ (k : Nat) (hk : k < bs.length), s.mem.read (s.pc.toNat + k) = bs[k]) :
    s.codeBytes = bs ++ s.codeBytes.drop bs.length := by
  have htake : s.codeBytes.take bs.length = bs := by
    apply List.ext_getElem
    · rw [List.length_take, codeBytes_length]
      omega
    · intro k hk hk'
      rw [List.getElem_take, codeBytes_getElem, h k hk']
  calc s.codeBytes = s.codeBytes.take bs.length ++ s.codeBytes.drop bs.length :=
        (List.take_append_drop bs.length s.codeBytes).symm
    _ = bs ++ s.codeBytes.drop bs.length := by rw [htake]

theorem step_held {s : State} (h : s.run = .held) : step s = .next s := by
  simp only [step, dispatchCycle, h]

theorem step_halted {s : State} (h : s.run = .halted) : step s = .next s := by
  simp only [step, dispatchCycle, h]

theorem step_decoded {s : State} (h : s.run = .running) {i : Instr} {rest : List Byte}
    (hd : decode s.codeBytes = .ok (i, rest)) : step s = exec i s := by
  simp only [step, dispatchCycle, h, runCycle, fetch, hd]

theorem step_undecoded {s : State} (h : s.run = .running) {e : DecodeError}
    (hd : decode s.codeBytes = .error e) : step s = fetchStop e s := by
  simp only [step, dispatchCycle, h, runCycle, fetch, hd]

/-- A machine whose step leaves a state leaves it for any number of steps. -/
theorem run_of_step_self {M : Host.Core} {s : M.State} (h : M.step s = .next s) (n : Nat) : M.run n s = .next s := by
  induction n with
  | zero => rfl
  | succ n ih => simp only [Host.Core.run, h, ih]

/-- PC is 256 or more: ADDRESS_FAULT with PC (40_dispatch.md R101). -/
theorem step_pc_out {s : State} (h : s.run = .running) (hp : 256 ≤ s.pc.toNat) :
    step s = .next (s.stop .addressFault s.pc) := by
  rw [step_undecoded h (codeBytes_nil s hp ▸ decode_nil)]
  simp [fetchStop, raise]

/-- The byte at PC is no opcode: the unknown-opcode stop (R111). -/
theorem step_unknown {s : State} (h : s.run = .running) (hp : s.pc.toNat < 256)
    (ho : opcodeOf (s.mem.read s.pc.toNat) = none) :
    step s = .next ((s.emit (.unknown (s.mem.read s.pc.toNat))).stop .unknownOpcode (zext9 (s.mem.read s.pc.toNat))) := by
  rw [step_undecoded h (codeBytes_cons s hp ▸ decode_unknown ho _)]
  rfl

/-- The bytes of the opcode at PC do not all exist: ADDRESS_FAULT with 256 (R102). -/
theorem step_operand_out {s : State} (h : s.run = .running) {o : Opcode} (hp : s.pc.toNat < 256)
    (ho : opcodeOf (s.mem.read s.pc.toNat) = some o) (hn : 256 < s.pc.toNat + o.length) :
    step s = .next (s.stop .addressFault 256) := by
  have hlen : ∀ o : Opcode, o.operandCount ≤ 2 := by intro o; cases o <;> decide
  have h2 := hlen o
  simp only [Opcode.length] at hn
  rcases decodeOperands_cases o ((List.range' (s.pc.toNat + 1) (min 2 (255 - s.pc.toNat))).map s.mem.read) with
    ⟨hlt, hd⟩ | ⟨hle, -⟩
  · simp only [List.length_map, List.length_range'] at hlt hd
    rw [step_undecoded h (codeBytes_cons s hp ▸ (decode_known ho _).trans hd)]
    simp only [fetchStop, raise]
    congr 2
    apply BitVec.eq_of_toNat_eq
    simp
    omega
  · simp only [List.length_map, List.length_range'] at hle
    omega

/-- Everything a step can do: nothing where the CORE is not RUNNING; execute the instruction decoded at PC, all of whose
bytes exist; or take one of the three stops of a fetch. -/
theorem step_cases (s : State) :
    (s.run ≠ .running ∧ step s = .next s) ∨
    (s.run = .running ∧ ∃ i rest, decode s.codeBytes = .ok (i, rest) ∧
      opcodeOf (s.mem.read s.pc.toNat) = some i.opcode ∧ s.pc.toNat + i.length ≤ 256 ∧ step s = exec i s) ∨
    (s.run = .running ∧ 256 ≤ s.pc.toNat ∧ step s = .next (s.stop .addressFault s.pc)) ∨
    (s.run = .running ∧ s.pc.toNat < 256 ∧ opcodeOf (s.mem.read s.pc.toNat) = none ∧
      step s = .next ((s.emit (.unknown (s.mem.read s.pc.toNat))).stop .unknownOpcode
        (zext9 (s.mem.read s.pc.toNat)))) ∨
    (s.run = .running ∧ s.pc.toNat < 256 ∧
      (∃ o, opcodeOf (s.mem.read s.pc.toNat) = some o ∧ 256 < s.pc.toNat + o.length) ∧
      step s = .next (s.stop .addressFault 256)) := by
  rcases hr : s.run with _ | _ | _
  · exact .inl ⟨by simp, step_held hr⟩
  · rcases Nat.lt_or_ge s.pc.toNat 256 with hp | hp
    · rcases ho : opcodeOf (s.mem.read s.pc.toNat) with _ | o
      · exact .inr (.inr (.inr (.inl ⟨rfl, hp, rfl, step_unknown hr hp ho⟩)))
      · rcases decodeOperands_cases o
          ((List.range' (s.pc.toNat + 1) (min 2 (255 - s.pc.toNat))).map s.mem.read) with ⟨hlt, -⟩ | ⟨hle, i, hi, hd⟩
        · simp only [List.length_map, List.length_range'] at hlt
          have hlen : ∀ o : Opcode, o.operandCount ≤ 2 := by intro o; cases o <;> decide
          have hout : 256 < s.pc.toNat + o.length := by
            have := hlen o
            simp only [Opcode.length]
            omega
          exact .inr (.inr (.inr (.inr ⟨rfl, hp, ⟨o, rfl, hout⟩, step_operand_out hr hp ho hout⟩)))
        · simp only [List.length_map, List.length_range'] at hle
          have hdec := codeBytes_cons s hp ▸ (decode_known ho _).trans hd
          refine .inr (.inl ⟨rfl, i, _, hdec, by rw [hi], ?_, step_decoded hr hdec⟩)
          simp only [Instr.length, Opcode.length, hi]
          omega
    · exact .inr (.inr (.inl ⟨rfl, hp, step_pc_out hr hp⟩))
  · exact .inl ⟨by simp, step_halted hr⟩

end Sys2Proof.Machine
end

