-- ==== Sys2Proof/Tests/Slice0.lean ====
section
/-! SUPPORT. The model's own tests: the well-formedness smoke, words written out from spec 30_encoding.md R84, one-step
vectors of 95_test_vectors.md (derived there from the rules), and a witness for the hypotheses of every statement. -/

namespace Sys2Proof.Tests

open Sys2Proof.Machine

/-! ## Helpers -/

/-- The reset state with PC at `p` and code bytes there. -/
def atPc (p : PcWord) (code : List Byte) : State :=
  { State.reset with pc := p, mem := Memory.writeBytes [] p.toNat code }

/-- The state with registers set. -/
def regsAre (s : State) (l : List (RegIdx × Byte)) : State := l.foldl (fun s r => s.setReg r.1 r.2) s

/-- The state with one more memory byte. -/
def memAt (s : State) (x : Nat) (v : Byte) : State := s.setMem (s.mem.write x v)

/-- A check of the next state; false where there is none. -/
def nextState (r : Result) (check : State → Bool) : Bool :=
  match r with
  | .next t => check t
  | .fault _ => false
  | .refused _ => false

/-! ## Well-formedness refuses an ill-formed term for each check (R86) -/

theorem test_wf_accepts : (Instr.add 7 0).wf = true ∧ (Instr.ldi 7 0xFF).wf = true ∧ Instr.ret.wf = true := by decide
theorem test_wf_refuses_ldi_regA : (Instr.ldi 8 0).wf = false := by decide
theorem test_wf_refuses_two_operand_regA :
    (Instr.add 8 0).wf = false ∧ (Instr.mul 9 0).wf = false ∧ (Instr.cmp 0xFF 0).wf = false := by decide
theorem test_wf_refuses_two_operand_regB :
    (Instr.add 0 8).wf = false ∧ (Instr.mul 0 9).wf = false ∧ (Instr.cmp 0 0xFF).wf = false := by decide
theorem test_wf_refuses_one_operand :
    (Instr.prn 8).wf = false ∧ (Instr.push 8).wf = false ∧ (Instr.pop 8).wf = false ∧ (Instr.call 8).wf = false ∧
    (Instr.jmp 8).wf = false ∧ (Instr.jeq 8).wf = false ∧ (Instr.jne 8).wf = false := by decide

/-! ## Decoding: words written bit by bit from R84 and R85 -/

theorem test_decode_ldi : decode [0b10000010, 0x02, 0xFF] = .ok (.ldi 2 0xFF, []) := by decide
theorem test_decode_prn : decode [0b01000111, 0x03, 0x99] = .ok (.prn 3, [0x99]) := by decide
theorem test_decode_hlt : decode [0b00000001, 0x11] = .ok (.hlt, [0x11]) := by decide
theorem test_decode_add : decode [0b10100000, 0x00, 0x01] = .ok (.add 0 1, []) := by decide
theorem test_decode_mul : decode [0b10100010, 0x00, 0x01] = .ok (.mul 0 1, []) := by decide
theorem test_decode_push : decode [0b01000101, 0x07] = .ok (.push 7, []) := by decide
theorem test_decode_pop : decode [0b01000110, 0x01] = .ok (.pop 1, []) := by decide
theorem test_decode_call : decode [0b01010000, 0x02] = .ok (.call 2, []) := by decide
theorem test_decode_ret : decode [0b00010001] = .ok (.ret, []) := by decide
theorem test_decode_cmp : decode [0b10100111, 0x04, 0x0B] = .ok (.cmp 4 0x0B, []) := by decide
theorem test_decode_jmp : decode [0b01010100, 0x01] = .ok (.jmp 1, []) := by decide
theorem test_decode_jeq : decode [0b01010101, 0x02] = .ok (.jeq 2, []) := by decide
theorem test_decode_jne : decode [0b01010110, 0x03] = .ok (.jne 3, []) := by decide
theorem test_decode_missing : decode [0x82] = .error (.missingByte 1) ∧ decode [0x82, 0x00] = .error (.missingByte 2) ∧
    decode [] = .error (.missingByte 0) := by decide
theorem test_table_word : decodeTableWord 24 0x080082 = some (.ldi 0 8) ∧ decodeTableWord 8 0xFFFF47 = some (.prn 0) := by
  decide
theorem test_asm : (Instr.ldi 0 8).asm = some "LDI R0, 8" ∧ (Instr.mul 0 1).asm = some "MUL R0, R1" ∧
    (Instr.prn 8).asm = none := by decide
theorem test_print_text : (Event.prn 0x48).text = "72" ∧ (Event.prn 0xFF).text = "255" := by decide

/-! ## One-step vectors -/

/-- V1.1 and V1.5 -/
theorem test_ldi : nextState (step (atPc 0 [0x82, 0x02, 0xFF])) (fun t => t.reg 2 == 0xFF && t.pc == 3) ∧
    nextState (step (atPc 0xFD [0x82, 0x01, 0x07])) (fun t => t.reg 1 == 7 && t.pc == 0x100) := by decide
/-- V1.6 -/
theorem test_ldi_past_end : nextState (step (atPc 0xFE [0x82, 0x01]))
    (fun t => t.hcause == 3 && t.hinfo == 0x100 && t.pc == 0xFE && t.reg 1 == 0) := by decide
/-- V2.3, and V2.4 -/
theorem test_prn : nextState (step (atPc 0 [0x47, 0x07])) (fun t => t.events == [.prn 0xF4] && t.pc == 2) ∧
    nextState (step (atPc 0 [0x47, 0x0A])) (fun t => t.events == [] && t.hcause == 4 && t.hinfo == 0x0A) := by decide
/-- V3.2 -/
theorem test_hlt_at_255 : nextState (step (atPc 0xFF [0x01]))
    (fun t => t.run == .halted && t.hcause == 1 && t.pc == 0xFF && t.events == []) := by decide
/-- V3.5 -/
theorem test_unknown_at_255 : nextState (step (atPc 0xFF [0x83]))
    (fun t => t.events == [.unknown 0x83] && t.hcause == 2 && t.hinfo == 0x83 && t.pc == 0xFF) := by decide
/-- V3.6 -/
theorem test_pc_256 : nextState (step (atPc 0x100 [])) (fun t => t.hcause == 3 && t.hinfo == 0x100 && t.pc == 0x100) := by
  decide
/-- V4.2 and V4.4 -/
theorem test_add_wraps : nextState (step (regsAre (atPc 0 [0xA0, 0x00, 0x01]) [(0, 0xC8), (1, 0x64)]))
      (fun t => t.reg 0 == 0x2C && t.reg 1 == 0x64 && t.events == [.diag 0xA0]) ∧
    nextState (step (regsAre (atPc 0 [0xA0, 0x01, 0x01]) [(1, 0x80)])) (fun t => t.reg 1 == 0) := by decide
/-- V4.8 and V4.7 -/
theorem test_add_register_fault : nextState (step (atPc 0 [0xA0, 0x09, 0x0A])) (fun t => t.hcause == 4 && t.hinfo == 9) ∧
    nextState (step (regsAre (atPc 0 [0xA0, 0x00, 0x09]) [(0, 5)]))
      (fun t => t.hcause == 4 && t.hinfo == 9 && t.reg 0 == 5 && t.events == []) := by decide
/-- V5.3 and V5.5 -/
theorem test_mul_wraps : nextState (step (regsAre (atPc 0 [0xA2, 0x00, 0x01]) [(0, 0xFF), (1, 0xFF)]))
      (fun t => t.reg 0 == 1 && t.events == [.diag 0xA2]) ∧
    nextState (step (regsAre (atPc 0 [0xA2, 0x03, 0x03]) [(3, 0x0F)])) (fun t => t.reg 3 == 0xE1) := by decide
/-- V6.2 -/
theorem test_push_wraps : nextState (step (regsAre (atPc 0 [0x45, 0x00]) [(0, 0x2A), (7, 0)]))
    (fun t => t.sp == 0xFF && t.mem.read 0xFF == 0x2A && t.pc == 2) := by decide
/-- V6.3 -/
theorem test_push_sp : nextState (step (atPc 0 [0x45, 0x07])) (fun t => t.sp == 0xF3 && t.mem.read 0xF3 == 0xF3) := by decide
/-- V7.2 -/
theorem test_pop_wraps : nextState (step (memAt (regsAre (atPc 0 [0x46, 0x01]) [(7, 0xFF)]) 0xFF 0x33))
    (fun t => t.reg 1 == 0x33 && t.sp == 0 && t.mem.read 0xFF == 0x33) := by decide
/-- V7.4 -/
theorem test_pop_sp : nextState (step (memAt (regsAre (atPc 0 [0x46, 0x07]) [(7, 0xF3)]) 0xF3 0x10))
    (fun t => t.reg 7 == 0x11) := by decide
/-- V8.1 and V8.2 -/
theorem test_call : nextState (step (regsAre (atPc 6 [0x50, 0x02]) [(2, 0x0B)]))
      (fun t => t.sp == 0xF3 && t.mem.read 0xF3 == 8 && t.pc == 0x0B) ∧
    nextState (step (atPc 0 [0x50, 0x07])) (fun t => t.sp == 0xF3 && t.mem.read 0xF3 == 2 && t.pc == 0xF3) := by decide
/-- V8.3 and V8.4 -/
theorem test_call_at_254 : nextState (step (regsAre (atPc 0xFE [0x50, 0x02]) [(2, 0x10)]))
      (fun t => t.hcause == 3 && t.hinfo == 0x100 && t.sp == 0xF4 && t.pc == 0xFE) ∧
    nextState (step (atPc 0xFE [0x50, 0x09])) (fun t => t.hcause == 4 && t.hinfo == 9) := by decide
/-- V9.2 and V9.4 -/
theorem test_ret : nextState (step (memAt (regsAre (atPc 0 [0x11]) [(7, 0xFF)]) 0xFF 0x20))
      (fun t => t.pc == 0x20 && t.sp == 0) ∧
    nextState (step (memAt (regsAre (atPc 0xFF [0x11]) [(7, 0xF3)]) 0xF3 0x05)) (fun t => t.pc == 5 && t.sp == 0xF4) := by
  decide
/-- V10.6 and V10.4 -/
theorem test_cmp_unsigned : nextState (step (regsAre (atPc 0 [0xA7, 0x00, 0x01]) [(0, 0x80), (1, 0x7F)])) (fun t => t.fl == 2) ∧
    nextState (step ((regsAre (atPc 0 [0xA7, 0x00, 0x01]) [(1, 0xFF)]).setFl 2)) (fun t => t.fl == 0) := by decide
/-- V11.1 and V11.10 -/
theorem test_jmp_jeq : nextState (step (regsAre (atPc 0 [0x54, 0x01]) [(1, 0x40)])) (fun t => t.pc == 0x40) ∧
    nextState (step ((atPc 0 [0x55, 0x0C]).setFl 1)) (fun t => t.hcause == 4 && t.hinfo == 0x0C) := by decide
/-- V11.3 and V11.9 -/
theorem test_jeq : nextState (step ((regsAre (atPc 0x11 [0x55, 0x02]) [(2, 0x15)]).setFl 1)) (fun t => t.pc == 0x15) ∧
    nextState (step ((atPc 0xFE [0x55, 0x00]).setFl 2)) (fun t => t.pc == 0x100) := by decide
/-- V11.6 and V11.8 -/
theorem test_jne : nextState (step (regsAre (atPc 0x12 [0x56, 0x03]) [(3, 0x0C)])) (fun t => t.pc == 0x0C) ∧
    nextState (step ((regsAre (atPc 0x12 [0x56, 0x03]) [(3, 0x0C)]).setFl 2)) (fun t => t.pc == 0x14) := by decide

/-- Writing the unlisted value removes the cell. -/
theorem test_memory_canonical : Memory.write [(3, 0x01), (5, 0x02)] 3 0x00 = [(5, 0x02)] ∧
    Memory.write [(5, 0x02)] 3 0x01 = [(3, 0x01), (5, 0x02)] := by decide

/-- Every opcode-table word, placed at reset, is the instruction the next step runs. -/
theorem test_fetch_word : ∀ o ∈ Opcode.all,
    fetch (State.reset.withFetchWord 8 o.byte.toNat) =
      (match decodeTableWord 8 o.byte.toNat with | some i => .ok i | none => .error (.missingByte 0)) := by decide

/-! ## Witnesses: each statement's hypotheses are met together, clause by clause at the edge of its range -/

/-- The state HALTED by a HLT at reset. -/
def haltedState : State := State.reset.stop .hlt 0

theorem witness_DecodedBytesAreTheEncoding : ∃ bs i rest, decode bs = .ok (i, rest) :=
  ⟨[0x45, 0x07, 0x09], .push 7, [0x09], by decide⟩
theorem witness_DecodeByExactMatch :
    Opcode.ldi.byte = Opcode.ldi.byte ∧ decode (0x11 :: []) = .ok (.ret, []) ∧
    Opcode.ldi.byte = (atPc 0xFD [0x82]).mem.read 0xFD ∧ (atPc 0xFD [0x82]).pc.toNat + Opcode.ldi.length ≤ 256 ∧
    (atPc 0xFF [0x83]).run = .running ∧ (atPc 0xFF [0x83]).pc.toNat < 256 ∧
    ∀ o : Opcode, o.byte ≠ (atPc 0xFF [0x83]).mem.read (atPc 0xFF [0x83]).pc.toNat :=
  ⟨rfl, by decide, by decide, by decide, rfl, by decide, fun o => by cases o <;> decide⟩
theorem witness_StepRunsDecodedInstruction :
    (atPc 0xFF [0x01]).run = .running ∧ StandsAtPc (atPc 0xFF [0x01]) .hlt ∧
    StandsAtPc (atPc 0xFD [0x82, 0x07, 0x09]) (.ldi 7 9) ∧ StandsAtPc (atPc 0xFE [0x45, 0x08]) (.push 8) := by decide
theorem witness_NoStepUnlessRunning : haltedState.run ≠ .running ∧ State.heldReset.run ≠ .running := by decide
theorem witness_HaltedStateIsFinal : haltedState.run = .halted := by decide
theorem witness_FetchStopsInPriorityOrder :
    (atPc 0x100 []).run = .running ∧ 256 ≤ (atPc 0x100 []).pc.toNat ∧
    ((atPc 0xFF [0xA1]).pc.toNat < 256 ∧
      ∀ o : Opcode, o.byte ≠ (atPc 0xFF [0xA1]).mem.read (atPc 0xFF [0xA1]).pc.toNat) ∧
    ((atPc 0xFE [0xA0]).pc.toNat < 256 ∧ Opcode.add.byte = (atPc 0xFE [0xA0]).mem.read 0xFE ∧
      256 < (atPc 0xFE [0xA0]).pc.toNat + Opcode.add.length) ∧
    ((atPc 0xFF [0x50]).pc.toNat < 256 ∧ Opcode.call.byte = (atPc 0xFF [0x50]).mem.read 0xFF ∧
      256 < (atPc 0xFF [0x50]).pc.toNat + Opcode.call.length) :=
  ⟨rfl, by decide, ⟨by decide, fun o => by cases o <;> decide⟩, by decide, by decide⟩
theorem witness_UnassignedOpcodeStops :
    State.reset.run = .running ∧ State.reset.pc.toNat < 256 ∧ Unassigned (State.reset.mem.read State.reset.pc.toNat) ∧
    Unassigned ((atPc 0xFF [0xFF]).mem.read (atPc 0xFF [0xFF]).pc.toNat) := by decide
theorem witness_RegisterOperandCheckStops :
    8 ≤ (8 : Byte).toNat ∧ 8 ≤ (0xFF : Byte).toNat ∧ (7 : Byte).toNat < 8 ∧
    Instr.ldi 8 0xFF ∈ [Instr.ldi 8 0xFF, .prn 8, .add 8 0xFF, .mul 8 0xFF, .push 8, .pop 8, .call 8, .cmp 8 0xFF,
      .jmp 8, .jeq 8, .jne 8] ∧ Instr.cmp 7 8 ∈ [Instr.add 7 8, .mul 7 8, .cmp 7 8] := by decide
theorem witness_LdiLoadsImmediate : (0 : Byte).toNat < 8 ∧ (7 : Byte).toNat < 8 := by decide
theorem witness_PrnEmitsRegister : (0 : Byte).toNat < 8 ∧ (7 : Byte).toNat < 8 := by decide
theorem witness_AddWritesSum : (7 : Byte).toNat < 8 ∧ (0 : Byte).toNat < 8 := by decide
theorem witness_MulWritesProduct : (7 : Byte).toNat < 8 ∧ (0 : Byte).toNat < 8 := by decide
theorem witness_PopLoadsRegister : ((6 : Byte).toNat < 8 ∧ (6 : Byte).toNat ≠ 7) ∧ (7 : Byte).toNat < 8 ∧ (7 : Byte).toNat = 7 := by
  decide
theorem witness_JmpJumps : (0 : Byte).toNat < 8 ∧ (7 : Byte).toNat < 8 := by decide
theorem witness_LdiThenPrnEmitsImmediate : (0 : Byte).toNat < 8 ∧ (7 : Byte).toNat < 8 := by decide
theorem witness_PushStoresRegister : (7 : Byte).toNat < 8 ∧ (regsAre State.reset [(7, 0)]).mem.wf ∧
    pushAddress (regsAre State.reset [(7, 0)]) = 255 := by decide
theorem witness_CallPushesAndJumps : (7 : Byte).toNat < 8 ∧ (atPc 0xFD [0x50, 0x07]).mem.wf ∧
    (atPc 0xFD [0x50, 0x07]).pc.toNat + 2 < 256 := by decide
theorem witness_CallReturnAddressMustFit : (7 : Byte).toNat < 8 ∧ 256 ≤ (atPc 0xFE [0x50, 0x07]).pc.toNat + 2 := by decide
theorem witness_RetPopsIntoPc : (atPc 0xFF [0x11]).run = .running ∧ (atPc 0xFF [0x11]).pc.toNat < 256 ∧
    (atPc 0xFF [0x11]).mem.read (atPc 0xFF [0x11]).pc.toNat = 0x11 := by decide
theorem witness_CmpWritesFlags :
    (0 : Byte).toNat < 8 ∧ (1 : Byte).toNat < 8 ∧ (7 : Byte).toNat < 8 ∧
    (State.reset.reg 0).toNat = (State.reset.reg 1).toNat ∧ (State.reset.reg 7).toNat > (State.reset.reg 0).toNat ∧
    (State.reset.reg 0).toNat < (State.reset.reg 7).toNat := by decide
theorem witness_JeqJumpsOnEqual :
    (7 : Byte).toNat < 8 ∧ (State.reset.setFl 1).fl.getLsbD 0 = true ∧ (State.reset.setFl 2).fl.getLsbD 0 = false := by decide
theorem witness_JneJumpsOnNoFlag : (7 : Byte).toNat < 8 ∧ State.reset.fl = 0x00 ∧ (State.reset.setFl 2).fl ≠ 0x00 := by decide
theorem witness_ArithmeticIsModulo256 : (7 : Byte).toNat < 8 ∧ (6 : Byte).toNat ≠ 7 ∧ State.reset.pc.toNat + 2 < 256 := by
  decide
theorem witness_JumpsReplacePc : (6 : Byte).toNat < 8 ∧ (6 : Byte).toNat ≠ 7 ∧ State.reset.pc.toNat + 2 < 256 ∧
    (State.reset.setFl 1).flagE = true ∧ State.reset.fl = 0 := by decide
theorem witness_DefaultAdvanceNeverWraps :
    (atPc 0xFD [0x82, 0x07, 0x09]).run = .running ∧ StandsAtPc (atPc 0xFD [0x82, 0x07, 0x09]) (.ldi 7 9) ∧
    (Instr.ldi 7 9).wf = true ∧ (Instr.ldi 7 9).opcode ∈ [Opcode.ldi, .prn, .add, .mul, .push, .pop, .cmp] := by decide
theorem witness_AluSupportsExactlyAddAndMul :
    (0xA0 : Byte) = 0xA0 ∧ (0xA2 : Byte) = 0xA2 ∧ (0xA7 : Byte) ≠ 0xA0 ∧ (0xA7 : Byte) ≠ 0xA2 := by decide
theorem witness_AluUnsupportedIsUnreachable :
    (0xA7 : Byte) ∉ [Opcode.add.byte, Opcode.mul.byte] ∧ State.reset.run = .running ∧
    (∃ t, exec .hlt State.reset = .next t ∧ t.run = .halted) ∧ ∃ t, step State.reset = .next t ∧ t.run = .halted :=
  ⟨by decide, rfl, ⟨_, rfl, rfl⟩, ⟨_, rfl, rfl⟩⟩
theorem witness_OnlyCmpWritesFlags :
    (Instr.hlt.opcode ≠ .cmp ∧ ∃ t, exec .hlt State.reset = .next t) ∧
    ∃ t, step (atPc 0 [0xA7, 0x00, 0x00]) = .next t ∧ t.fl ≠ (atPc 0 [0xA7, 0x00, 0x00]).fl :=
  ⟨⟨by decide, _, rfl⟩, _, rfl, by decide⟩
theorem witness_OnlyPushAndCallStore :
    (atPc 0 [0x45, 0x07]).mem.wf ∧ ∃ t, step (atPc 0 [0x45, 0x07]) = .next t ∧
      t.mem.read 0xF3 ≠ (atPc 0 [0x45, 0x07]).mem.read 0xF3 := ⟨by decide, _, rfl, by decide⟩
theorem witness_StepEmitsAtMostOneEvent : ∃ t, step State.reset = .next t ∧ t.events = [.unknown 0x00] := ⟨_, rfl, rfl⟩
theorem witness_FaultsArePrecise :
    (atPc 0 [0xA0, 0x09, 0x0A]).run = .running ∧ ∃ t, step (atPc 0 [0xA0, 0x09, 0x0A]) = .next t ∧ FaultStop t :=
  ⟨rfl, _, rfl, by decide⟩
theorem witness_NormalCompletionOnlyByHlt :
    (atPc 0xFF [0x01]).run = .running ∧ ∃ t, step (atPc 0xFF [0x01]) = .next t ∧ CompletedNormally t :=
  ⟨rfl, _, rfl, by decide⟩
theorem witness_PushThenPopRestores : (7 : Byte).toNat < 8 ∧ State.reset.mem.wf := by decide
theorem witness_CallThenRetReturns :
    (6 : Byte).toNat < 8 ∧ State.reset.mem.wf ∧ State.reset.pc.toNat + 2 < 256 ∧
    ∃ t u : State, exec (.call 6) State.reset = .next t ∧ u = t.setFl 1 ∧ u.sp = t.sp ∧
      u.mem.read u.sp.toNat = t.mem.read u.sp.toNat := ⟨by decide, by decide, by decide, _, _, rfl, rfl, rfl, rfl⟩
theorem witness_CompareThenConditionalJump :
    (State.reset.reg ⟨(0 : Byte).toNat, by decide⟩).toNat = (State.reset.reg ⟨(6 : Byte).toNat, by decide⟩).toNat ∧
    (State.reset.reg ⟨(7 : Byte).toNat, by decide⟩).toNat > (State.reset.reg ⟨(0 : Byte).toNat, by decide⟩).toNat ∧
    (State.reset.reg ⟨(0 : Byte).toNat, by decide⟩).toNat < (State.reset.reg ⟨(7 : Byte).toNat, by decide⟩).toNat := by
  decide
/-- P5: the PUSH at 6 with SP = 9 stores the opcode HLT over address 8, where the next fetch reads it. -/
theorem witness_PushedCodeIsFetched_opcode :
    let s := regsAre (atPc 6 [0x45, 0x00, 0x47, 0x00]) [(0, 0x01), (7, 0x09)]
    (0 : Byte).toNat < 8 ∧ s.run = .running ∧ s.mem.wf ∧ StandsAtPc s (.push 0) ∧ Opcode.hlt.byte = s.reg 0 ∧
      nextState (step s) (fun t => decide (t.pc.toNat = pushAddress s ∧ t.pc.toNat + Opcode.hlt.length ≤ 256)) := by decide
/-- PUSH R7 over the next instruction stores an unassigned byte; an LDI opcode pushed to 254 lacks its second operand. -/
theorem witness_PushedCodeIsFetched_stops :
    (let s := regsAre (atPc 0 [0x45, 0x07, 0x01]) [(7, 0x03)]
     (7 : Byte).toNat < 8 ∧ s.run = .running ∧ s.mem.wf ∧ StandsAtPc s (.push 7) ∧ Unassigned (s.sp - 1) ∧
       nextState (step s) (fun t => decide (t.pc.toNat = pushAddress s))) ∧
    (let s := regsAre (atPc 0xFC [0x45, 0x00, 0x01]) [(0, 0x82), (7, 0xFF)]
     StandsAtPc s (.push 0) ∧ Opcode.ldi.byte = s.reg 0 ∧
       nextState (step s) (fun t => decide (t.pc.toNat = pushAddress s ∧ 256 < t.pc.toNat + Opcode.ldi.length))) := by decide
/-- PUSH R1 stores the operand byte of the PRN after it. -/
theorem witness_PushedCodeIsFetched_operand :
    let s := regsAre (atPc 0 [0x45, 0x01, 0x47, 0x00]) [(1, 0x05), (7, 0x04)]
    s.mem.wf ∧ StandsAtPc s (.push 1) ∧
      nextState (step s) (fun t => decide (StandsAtPc t (.prn 5) ∧ pushAddress s = t.pc.toNat + 1)) := by decide
/-- CALL R7 at 15 jumps to the return address 17 it stored, the opcode of RET; the last CALL that fits is at 253. -/
theorem witness_PushedCodeIsFetched_call :
    (let s := atPc 15 [0x50, 0x07]
     (7 : Byte).toNat < 8 ∧ s.run = .running ∧ s.mem.wf ∧ StandsAtPc s (.call 7) ∧ s.pc.toNat + 2 < 256 ∧
       nextState (step s) (fun t => decide (t.run = .running ∧ t.pc.toNat = pushAddress s ∧
         t.mem.read (pushAddress s) = Opcode.ret.byte))) ∧
    StandsAtPc (atPc 0xFD [0x50, 0x07]) (.call 7) ∧ (atPc 0xFD [0x50, 0x07]).pc.toNat + 2 < 256 := by decide
theorem witness_ReadReturnsLatestWrite : Memory.wf [(0, 0x01), (255, 0x02)] := by decide
theorem witness_MemoryPrimitives : State.reset.mem.wf ∧ (255 : Nat) < 256 ∧ 256 ≤ (256 : Nat) := by decide
theorem witness_EqualReadsMeanEqualMemory : Memory.wf [(255, 0x02)] ∧ Memory.wf [(255, 0x02)] ∧
    ∀ x : Nat, Memory.read [(255, 0x02)] x = Memory.read [(255, 0x02)] x := ⟨by decide, by decide, fun _ => rfl⟩
theorem witness_StepKeepsInvariant : State.reset.Inv ∧ ∃ t, step State.reset = .next t := ⟨by decide, _, rfl⟩
theorem witness_HostActionKeepsInvariant :
    State.heldReset.Inv ∧ (∃ t, hostAct (.load 255 0x01) State.heldReset = .next t) ∧
    (∃ t, hostAct .release State.heldReset = .next t) ∧ ∃ t, hostAct .assertReset haltedState = .next t :=
  ⟨by decide, ⟨_, rfl⟩, ⟨_, rfl⟩, ⟨_, rfl⟩⟩
theorem witness_LaunchLoadsImage : ([] : List Byte).length ≤ 256 ∧ (List.replicate 256 (0x01 : Byte)).length ≤ 256 :=
  ⟨by decide, by rw [List.length_replicate]⟩
theorem witness_HostActionsOutsideContractRefused :
    256 < (List.replicate 257 (0x01 : Byte)).length ∧ State.reset.run ≠ .held ∧ haltedState.run ≠ .held := by
  refine ⟨by rw [List.length_replicate]; decide, by decide, by decide⟩
theorem witness_OnlyResetLeavesHalted :
    haltedState.run = .halted ∧ (∃ t, step haltedState = .next t) ∧ ∃ t, hostAct .assertReset haltedState = .next t :=
  ⟨rfl, ⟨_, rfl⟩, ⟨_, rfl⟩⟩

end Sys2Proof.Tests
end

section
/-! The obligation about the opcode table (spec 30_encoding.md R84, R85). -/

namespace Sys2Proof.Proofs

/-- Settles O1: both halves are computed from the model's one table. `encode` puts `Opcode.byte` before the operand
bytes in memory order, whatever they are, so each row's bytes are definitional (R84, R85); the columns are a closed
comparison over the thirteen opcodes of `Opcode.all`. -/
theorem opcodeTableEncodings : Obligations.OpcodeTableEncodings := by
  unfold Obligations.OpcodeTableEncodings
  refine ⟨fun _ _ => rfl, fun _ => rfl, rfl, fun _ _ => rfl, fun _ _ => rfl, fun _ => rfl, fun _ => rfl,
    fun _ => rfl, rfl, fun _ _ => rfl, fun _ => rfl, fun _ => rfl, fun _ => rfl, ?columns⟩
  case columns => decide

end Sys2Proof.Proofs
end

section
/-! The obligation about decoding by exact match (spec 40_dispatch.md R103). -/

namespace Sys2Proof.Proofs

open Sys2Proof.Machine

/-- The decoder's own lookup tells the 13 encodings apart. -/
theorem opcode_byte_injective {o o' : Opcode} (h : o.byte = o'.byte) : o = o' :=
  Option.some.inj (by rw [← opcodeOf_byte o, h, opcodeOf_byte])

/-- The lookup answers an opcode exactly where the byte is that opcode's encoding. -/
theorem opcodeOf_eq_some {b : Byte} {o : Opcode} : opcodeOf b = some o ↔ o.byte = b :=
  ⟨byte_of_opcodeOf, fun h => h ▸ opcodeOf_byte o⟩

/-- The instruction decoded is one of the opcode looked up for the first byte. -/
theorem opcodeOf_of_decode {b : Byte} {bs rest : List Byte} {i : Instr} (h : decode (b :: bs) = .ok (i, rest)) :
    opcodeOf b = some i.opcode := by
  rcases ho : opcodeOf b with _ | o
  case none =>
    rw [decode_unknown ho] at h
    cases h
  case some =>
    rw [decode_known ho] at h
    rcases decodeOperands_cases o bs with ⟨-, hd⟩ | ⟨-, i', hi', hd⟩
    · rw [hd] at h
      cases h
    · rw [hd] at h
      cases h
      rw [hi']

/-- A match selects its rule: where the bytes of the opcode at PC all exist, an instruction of that opcode executes.
Of the cases of a step no other has both an opcode at PC and room for its bytes. -/
theorem step_of_opcode_at_pc {s : State} {o : Opcode} (hrun : s.run = .running) (ho : o.byte = s.mem.read s.pc.toNat)
    (fit : s.pc.toNat + o.length ≤ 256) : ∃ i : Instr, i.opcode = o ∧ step s = exec i s := by
  have hsome : opcodeOf (s.mem.read s.pc.toNat) = some o := opcodeOf_eq_some.mpr ho
  have hpos : 0 < o.length := by simp only [Opcode.length]; omega
  rcases step_cases s with ⟨hnot, -⟩ | ⟨-, i, -, -, hi, -, hexec⟩ | ⟨-, hp, -⟩ | ⟨-, -, hnone, -⟩ |
    ⟨-, -, ⟨o', ho', hover⟩, -⟩
  · exact absurd hrun hnot
  · exact ⟨i, Option.some.inj (hi.symm.trans hsome), hexec⟩
  · omega
  · exact absurd (hnone.symm.trans hsome) (by simp)
  · obtain rfl : o' = o := Option.some.inj (ho'.symm.trans hsome)
    omega

/-- Settles O5: the lookup of the byte at PC answers an opcode exactly where all 8 bits match its encoding, so a match
is unique and selects its instruction, and a byte without one takes the unknown-opcode rule (R111). -/
theorem decodeByExactMatch : Obligations.DecodeByExactMatch := by
  unfold Obligations.DecodeByExactMatch
  refine ⟨fun _ _ => opcode_byte_injective, ?decoded, fun _ _ => step_of_opcode_at_pc, ?unknown⟩
  case decoded => exact fun _ _ _ _ hd => (byte_of_opcodeOf (opcodeOf_of_decode hd)).symm
  case unknown => exact fun _ hrun hp hno => step_unknown hrun hp (opcodeOf_eq_none.mpr hno)

end Sys2Proof.Proofs
end

section
/-! The obligation about the instructions that replace PC (spec 40_dispatch.md R105). -/

namespace Sys2Proof.Proofs

open Sys2Proof.Machine

/-- A next state that has written PC with a byte has that byte in PC: nothing is added to it. -/
theorem pc_of_next_setPc {r : Result} {u : State} {v : Byte} (h : r = .next (u.setPc (zext9 v))) :
    ∃ t : State, r = .next t ∧ t.pc.toNat = v.toNat :=
  ⟨_, h, by rw [State.setPc_pc, zext9_toNat]⟩

/-- The decrement of SP keeps every register but R7. -/
theorem reg_decSp_of_ne {a : Byte} (s : State) (ha : a.toNat < 8) (h7 : a.toNat ≠ 7) :
    s.decSp.reg ⟨a.toNat, ha⟩ = s.reg ⟨a.toNat, ha⟩ :=
  State.reg_setReg_other s _ fun h => h7 (congrArg Fin.val h)

/-- Settles O29: each of these instructions ends by writing PC with a zero-extended byte; for CALL it is the register
as read after the decrement of SP, which is the register's own value where it is not R7. -/
theorem jumpsReplacePc : Obligations.JumpsReplacePc := by
  unfold Obligations.JumpsReplacePc
  refine ⟨fun s a ha => ⟨fun h7 hp => ?call, ?jmp, fun hE => ?jeq, fun hfl => ?jne⟩, fun s => ?ret⟩
  case call =>
    have hcall := exec_call s ha hp
    rw [reg_decSp_of_ne s ha h7] at hcall
    exact pc_of_next_setPc hcall
  case jmp => exact pc_of_next_setPc (exec_jmp s ha)
  case jeq => exact pc_of_next_setPc ((exec_jeq s ha).trans (by rw [if_pos hE]))
  case jne => exact pc_of_next_setPc ((exec_jne s ha).trans (by rw [if_pos (beq_iff_eq.mpr hfl)]))
  case ret => exact pc_of_next_setPc (exec_ret s)

end Sys2Proof.Proofs
end

section
/-! The obligations about the ALU and the arithmetic modulo 256 (spec 42_alu.md R130, R133, R134). -/

namespace Sys2Proof.Proofs

open Sys2Proof.Machine

/-- A register written with a number cut to 8 bits holds the number modulo 256. -/
theorem toNat_reg_setReg_ofNat (s : State) (a : RegIdx) (n : Nat) :
    ((s.setReg a (BitVec.ofNat 8 n)).reg a).toNat = n % 256 := by
  rw [State.reg_setReg_same, BitVec.toNat_ofNat]

theorem toNat_sp_decSp (s : State) : s.decSp.sp.toNat = (s.sp.toNat + 255) % 256 := by
  rw [sp_decSp, toNat_dec]

theorem toNat_sp_incSp (s : State) : s.incSp.sp.toNat = (s.sp.toNat + 1) % 256 := by
  rw [sp_incSp, toNat_inc]

/-- A write to a register other than R7 keeps SP. -/
theorem sp_setReg_of_ne {a : Byte} (s : State) (ha : a.toNat < 8) (h7 : a.toNat ≠ 7) (v : Byte) :
    (s.setReg ⟨a.toNat, ha⟩ v).sp = s.sp :=
  State.reg_setReg_other s v fun h => h7 (congrArg Fin.val h).symm

/-- Settles O28: the next state of each instruction is known, and what it does after the register write (event, memory,
PC) touches no register, so the claim is the write's own value. POP writes regA before it increments SP, so its claim
needs that regA is not R7. -/
theorem arithmeticIsModulo256 : Obligations.ArithmeticIsModulo256 := by
  unfold Obligations.ArithmeticIsModulo256
  refine ⟨fun s a b ha hb => ⟨?add, ?mul⟩, fun s a ha => ⟨?push, fun hp => ?call, fun h7 => ?pop⟩, fun s => ?ret⟩
  case add => exact ⟨_, exec_add s ha hb, rfl, ⟨rfl, rfl, rfl⟩, toNat_reg_setReg_ofNat s _ _⟩
  case mul => exact ⟨_, exec_mul s ha hb, rfl, ⟨rfl, rfl, rfl⟩, toNat_reg_setReg_ofNat s _ _⟩
  case push => exact ⟨_, exec_push s ha, toNat_sp_decSp s⟩
  case call => exact ⟨_, exec_call s ha hp, toNat_sp_decSp s⟩
  case pop =>
    have hsp := toNat_sp_incSp (s.setReg ⟨a.toNat, ha⟩ (s.mem.read s.sp.toNat))
    rw [sp_setReg_of_ne s ha h7] at hsp
    exact ⟨_, exec_pop s ha, hsp⟩
  case ret => exact ⟨_, exec_ret s, toNat_sp_incSp s⟩

/-- A result that writes a number cut to 8 bits to one register leaves that number modulo 256 there and changes nothing
else. -/
theorem next_setReg_ofNat_effect {r : Result} {s : State} {a : RegIdx} {n : Nat}
    (h : r = .next (s.setReg a (BitVec.ofNat 8 n))) :
    ∃ t : State, r = .next t ∧ (t.reg a).toNat = n % 256 ∧ KeepsRegs s t [a] ∧ t = { s with regs := t.regs } :=
  ⟨_, h, toNat_reg_setReg_ofNat s a n,
    fun _ hr => State.reg_setReg_other s _ fun he => hr (List.mem_singleton.mpr he), rfl⟩

/-- Settles O31: the bytes of ADD and MUL are the two the ALU computes for; the operands are those of the state before
the write, and only the register written differs. -/
theorem aluSupportsExactlyAddAndMul : Obligations.AluSupportsExactlyAddAndMul := by
  unfold Obligations.AluSupportsExactlyAddAndMul
  refine fun op a b s => ⟨?add, ?mul, fun hadd hmul => alu_other hadd hmul a b s⟩
  case add =>
    rintro rfl
    exact next_setReg_ofNat_effect (alu_add a b s .next)
  case mul =>
    rintro rfl
    exact next_setReg_ofNat_effect (alu_mul a b s .next)

/-- A stop whose cause has another code than ALU_UNSUPPORTED does not record ALU_UNSUPPORTED. -/
theorem stop_hcause_ne_aluUnsupported {c : HaltCause} (s : State) (info : BitVec 9)
    (hc : c.code ≠ HaltCause.aluUnsupported.code) : (s.stop c info).hcause ≠ HaltCause.aluUnsupported.code := by
  rwa [State.stop_hcause]

/-- The stops an execution can take are REGISTER_FAULT, ADDRESS_FAULT and HLT; an instruction that completes leaves a
RUNNING CORE RUNNING. -/
theorem exec_hcause_ne_aluUnsupported {i : Instr} {s t : State} (hrun : s.run = .running) (h : exec i s = .next t)
    (hhalt : t.run = .halted) : t.hcause ≠ HaltCause.aluUnsupported.code := by
  cases exec_cases h with
  | registerFault r hr ht => exact ht ▸ stop_hcause_ne_aluUnsupported s _ (by decide)
  | returnFault hi hp ht => exact ht ▸ stop_hcause_ne_aluUnsupported s _ (by decide)
  | halt hi ht => exact ht ▸ stop_hcause_ne_aluUnsupported s _ (by decide)
  | completes hkeep => exact absurd (hkeep.symm.trans hhalt) (by simp [hrun])

/-- A step executes an instruction, or takes one of the fetch's stops: ADDRESS_FAULT or UNKNOWN_OPCODE. -/
theorem step_hcause_ne_aluUnsupported {s t : State} (hrun : s.run = .running) (h : step s = .next t)
    (hhalt : t.run = .halted) : t.hcause ≠ HaltCause.aluUnsupported.code := by
  rcases step_cases s with ⟨hnot, -⟩ | ⟨-, i, -, -, -, -, hexec⟩ | ⟨-, -, hstop⟩ | ⟨-, -, -, hstop⟩ | ⟨-, -, -, hstop⟩
  · exact absurd hrun hnot
  · exact exec_hcause_ne_aluUnsupported hrun (hexec.symm.trans h) hhalt
  all_goals
    cases hstop.symm.trans h
    exact stop_hcause_ne_aluUnsupported _ _ (by decide)

/-- Settles O32: the primitive takes its stop for every opcode byte but two, and of the stops that an execution and a
step can take none has its cause. -/
theorem aluUnsupportedIsUnreachable : Obligations.AluUnsupportedIsUnreachable := by
  unfold Obligations.AluUnsupportedIsUnreachable
  refine ⟨fun op a b s k hop => ?primitive, fun _ _ _ => exec_hcause_ne_aluUnsupported,
    fun _ _ => step_hcause_ne_aluUnsupported⟩
  case primitive =>
    obtain ⟨hadd, hmul⟩ : op ≠ Opcode.add.byte ∧ op ≠ Opcode.mul.byte := by simpa using hop
    exact alu_other hadd hmul a b s k

end Sys2Proof.Proofs
end

section
/-! The obligation about RET (spec 44_subroutine.md R151). -/

namespace Sys2Proof.Proofs

open Sys2Proof.Machine

/-- RET has no operand bytes, so its opcode alone tells the instruction. -/
theorem eq_ret_of_opcode {i : Instr} (h : i.opcode = .ret) : i = .ret := by
  cases i
  case ret => rfl
  all_goals cases h

/-- The increment of SP keeps every register but R7. -/
theorem keepsRegs_incSp (s : State) : KeepsRegs s s.incSp [7] :=
  fun _ hr => State.reg_setReg_other s _ fun h => hr (List.mem_singleton.mpr h)

/-- The one byte of RET is its opcode, so wherever a running CORE fetches it, 255 included, every byte needed exists. -/
theorem step_ret {s : State} (hrun : s.run = .running) (hp : s.pc.toNat < 256)
    (hop : s.mem.read s.pc.toNat = Opcode.ret.byte) : step s = exec .ret s := by
  have fit : s.pc.toNat + Opcode.ret.length ≤ 256 := hp
  obtain ⟨i, hi, hstep⟩ := step_of_opcode_at_pc hrun hop.symm fit
  rwa [eq_ret_of_opcode hi] at hstep

/-- Settles O22: in every state RET increments SP and writes PC with the byte that was on top, whoever put it there,
and touches nothing else; its fetch needs no byte after the opcode. -/
theorem retPopsIntoPc : Obligations.RetPopsIntoPc := by
  unfold Obligations.RetPopsIntoPc
  refine ⟨rfl, fun s => ⟨_, exec_ret s, ?pc, ?sp, ?regs, rfl, rfl, ⟨rfl, rfl, rfl⟩, fun _ => rfl⟩,
    fun _ => step_ret⟩
  case pc => rw [State.setPc_pc, zext9_toNat]
  case sp => exact toNat_sp_incSp s
  case regs => exact keepsRegs_incSp s

end Sys2Proof.Proofs
end

section
/-! The obligations about encoding and decoding (spec 30_encoding.md R81 to R90). -/

namespace Sys2Proof.Proofs

/-- An encoding is the opcode byte and operand bytes that the opcode's format reads back, whatever follows. -/
theorem encode_eq_opcode_operands (i : Instr) (rest : List Byte) :
    ∃ operands, encode i = i.opcode.byte :: operands ∧
      decodeOperands i.opcode (operands ++ rest) = .ok (i, rest) := by
  cases i <;> exact ⟨_, rfl, rfl⟩

/-- Decoding takes exactly the bytes of an encoding and leaves the rest. -/
theorem decode_encode_append (i : Instr) (rest : List Byte) : decode (encode i ++ rest) = .ok (i, rest) := by
  obtain ⟨operands, henc, hdec⟩ := encode_eq_opcode_operands i rest
  rw [henc, List.cons_append, decode_known (opcodeOf_byte _), hdec]

/-- Settles O3: the opcode byte of an encoding is looked up to its own opcode, whose format reads the operand bytes
back. -/
theorem decodeInvertsEncode : Obligations.DecodeInvertsEncode := by
  unfold Obligations.DecodeInvertsEncode
  exact decode_encode_append

section
variable {o : Opcode} {bs rest : List Byte} {i : Instr}

/-- Format F1R backwards: what was decoded is encoded by the byte that was taken. -/
theorem cons_eq_encode_of_decodeOneOperand {make : Byte → Instr} (hmake : ∀ a, encode (make a) = [o.byte, a])
    (h : decodeOneOperand make bs = .ok (i, rest)) : o.byte :: bs = encode i ++ rest := by
  rcases decodeOneOperand_cases make bs with ⟨-, hd⟩ | ⟨a, rest', rfl, hd⟩ <;> cases hd.symm.trans h
  rw [hmake]
  rfl

/-- Formats F2RI and F2RR backwards. -/
theorem cons_eq_encode_of_decodeTwoOperands {make : Byte → Byte → Instr}
    (hmake : ∀ a b, encode (make a b) = [o.byte, a, b])
    (h : decodeTwoOperands make bs = .ok (i, rest)) : o.byte :: bs = encode i ++ rest := by
  rcases decodeTwoOperands_cases make bs with ⟨-, hd⟩ | ⟨a, b, rest', rfl, hd⟩ <;> cases hd.symm.trans h
  rw [hmake]
  rfl

/-- The operand bytes taken for an opcode are those its instruction encodes. -/
theorem cons_eq_encode_of_decodeOperands (h : decodeOperands o bs = .ok (i, rest)) :
    o.byte :: bs = encode i ++ rest := by
  cases o
  case hlt | ret =>
    cases h
    rfl
  case prn | push | pop | call | jmp | jeq | jne => exact cons_eq_encode_of_decodeOneOperand (fun _ => rfl) h
  case ldi | add | mul | cmp => exact cons_eq_encode_of_decodeTwoOperands (fun _ _ => rfl) h

theorem eq_encode_append_of_decode (h : decode bs = .ok (i, rest)) : bs = encode i ++ rest := by
  cases bs with
  | nil => cases h
  | cons b bs =>
    have ho := opcodeOf_of_decode h
    rw [decode_known ho] at h
    rw [← byte_of_opcodeOf ho]
    exact cons_eq_encode_of_decodeOperands h

end

/-- Settles O4: the first byte matches all 8 bits of the opcode looked up, and the operand bytes are taken as they
are. -/
theorem decodedBytesAreTheEncoding : Obligations.DecodedBytesAreTheEncoding := by
  unfold Obligations.DecodedBytesAreTheEncoding
  exact fun _ _ _ => eq_encode_append_of_decode

/-- Settles O2: nine of the words are encodings written out, followed by what is left over; no row of the table has
the byte 0x83. -/
theorem sampleWordsDecode : Obligations.SampleWordsDecode := by
  unfold Obligations.SampleWordsDecode
  exact ⟨decode_encode_append (.ldi 0 8) [], decode_encode_append (.prn 0) [], decode_encode_append (.add 0 1) [],
    decode_encode_append (.push 0) [0x01], decode_encode_append (.call 2) [], decode_encode_append .ret [],
    decode_encode_append (.cmp 0 1) [], decode_encode_append (.jne 3) [], decode_encode_append .hlt [],
    decode_unknown (by decide) _⟩

/-- Settles O6: bits 7:6 are the operand count by the table's own length law (R88); bits 5 and 4 are a comparison over
the thirteen opcode bytes. -/
theorem opcodeFieldsDescribeTheTable : Obligations.OpcodeFieldsDescribeTheTable := by
  unfold Obligations.OpcodeFieldsDescribeTheTable
  refine fun o => ⟨?operands, ?classes⟩
  case operands => exact (Nat.add_left_cancel (opcode_length o)).symm
  case classes => cases o <;> decide

end Sys2Proof.Proofs
end

section
/-! The obligations about the invariant, reset and the host's actions (spec 10_state.md; 60_exceptions.md R181;
70_reset_and_hazards.md). -/

namespace Sys2Proof.Proofs

open Sys2Proof.Machine

/-- A stop writes only the halt record, so the invariant is kept where the record is a row of R181. -/
theorem inv_stop {s : State} (hs : s.Inv) {c : HaltCause} {info : BitVec 9}
    (hrecord : HaltRecordLegal (s.stop c info)) : (s.stop c info).Inv := by
  obtain ⟨hmem, hfl, hpc, -⟩ := hs
  exact ⟨hmem, hfl, hpc, hrecord⟩

theorem haltRecordLegal_hlt (s : State) : HaltRecordLegal (s.stop .hlt 0) :=
  .inr ⟨rfl, .inl ⟨rfl, rfl⟩⟩

theorem haltRecordLegal_unknownOpcode (s : State) (op : Byte) :
    HaltRecordLegal (s.stop .unknownOpcode (zext9 op)) :=
  .inr ⟨rfl, .inr (.inl ⟨rfl, Nat.le_of_lt_succ (zext9_lt op)⟩)⟩

theorem haltRecordLegal_addressFault (s : State) {info : BitVec 9} (h : info.toNat = 256) :
    HaltRecordLegal (s.stop .addressFault info) :=
  .inr ⟨rfl, .inr (.inr (.inl ⟨rfl, BitVec.eq_of_toNat_eq h⟩))⟩

theorem haltRecordLegal_registerFault (s : State) {r : Byte} (hr : 8 ≤ r.toNat) :
    HaltRecordLegal (s.stop .registerFault (zext9 r)) :=
  .inr ⟨rfl, .inr (.inr (.inr ⟨rfl, by rwa [State.stop_hinfo, zext9_toNat], Nat.le_of_lt_succ (zext9_lt r)⟩))⟩

/-- The halt record's law speaks of the run state, HCAUSE and HINFO alone. -/
theorem haltRecordLegal_of_keepsRunning {s t : State} (h : KeepsRunning s t) (hs : HaltRecordLegal s) :
    HaltRecordLegal t := by
  obtain ⟨hrun, hcause, hinfo⟩ := h
  simpa only [HaltRecordLegal, hrun, hcause, hinfo] using hs

/-- The default advance of an instruction that ends inside memory is the sum of the numbers. -/
theorem toNat_add_ofNat_of_le {p : PcWord} {n : Nat} (h : p.toNat + n ≤ 256) :
    (p + BitVec.ofNat 9 n).toNat = p.toNat + n := by
  rw [BitVec.toNat_add, BitVec.toNat_ofNat]
  omega

/-- An instruction whose bytes lie inside memory keeps the invariant. -/
theorem exec_keeps_inv {i : Instr} {s t : State} (hs : s.Inv) (fit : s.pc.toNat + i.length ≤ 256)
    (h : exec i s = .next t) : t.Inv := by
  cases exec_cases h with
  | registerFault r hr ht => exact ht ▸ inv_stop hs (haltRecordLegal_registerFault s hr)
  | returnFault hi hp ht =>
    have hlen : i.length = 2 := by rw [Instr.length, hi]; rfl
    refine ht ▸ inv_stop hs (haltRecordLegal_addressFault s ?_)
    rw [BitVec.toNat_ofNat]
    omega
  | halt hi ht => exact ht ▸ inv_stop hs (haltRecordLegal_hlt s)
  | completes hrun hcause hinfo hfl hmem hevents hpc =>
    obtain ⟨hmemS, hflS, -, hrecordS⟩ := hs
    refine ⟨?mem, ?fl, ?pc, haltRecordLegal_of_keepsRunning ⟨hrun, hcause, hinfo⟩ hrecordS⟩
    case mem =>
      rcases hmem with hkeep | ⟨-, v, hwrite⟩
      · exact hkeep ▸ hmemS
      · exact hwrite ▸ Memory.wf_write hmemS s.decSp.sp.isLt v
    case fl =>
      rcases hfl with hkeep | ⟨-, hlegal⟩
      · simpa only [FlLegal, hkeep] using hflS
      · exact hlegal
    case pc =>
      rcases hpc with hbyte | hadvance
      · exact Nat.le_of_lt hbyte
      · rw [PcLegal, hadvance, toNat_add_ofNat_of_le fit]
        exact fit

/-- Settles O49: a step executes an instruction that lies inside memory, or takes a stop of the fetch, whose faulting
address is 256 since PC is at most 256 before it. -/
theorem stepKeepsInvariant : Obligations.StepKeepsInvariant := by
  unfold Obligations.StepKeepsInvariant
  intro s t hs h
  have ⟨_, _, hpcS, _⟩ := hs
  rcases step_cases s with ⟨-, hself⟩ | ⟨-, i, -, -, -, fit, hexec⟩ | ⟨-, hp, hstop⟩ | ⟨-, -, -, hstop⟩ |
    ⟨-, -, -, hstop⟩
  · cases hself.symm.trans h
    exact hs
  · exact exec_keeps_inv hs fit (hexec.symm.trans h)
  · cases hstop.symm.trans h
    exact inv_stop hs (haltRecordLegal_addressFault s (Nat.le_antisymm hpcS hp))
  · cases hstop.symm.trans h
    have hemit : (s.emit (.unknown (s.mem.read s.pc.toNat))).Inv := hs
    exact inv_stop hemit (haltRecordLegal_unknownOpcode _ _)
  · cases hstop.symm.trans h
    exact inv_stop hs (haltRecordLegal_addressFault s rfl)

/-- Settles O48: the memory of the reset state is empty, and the record is the one of a CORE that is not HALTED. -/
theorem resetMeetsInvariant : Obligations.ResetMeetsInvariant := by
  unfold Obligations.ResetMeetsInvariant
  exact ⟨Memory.wf_nil, .inl rfl, Nat.zero_le _, .inl ⟨by decide, rfl, rfl⟩⟩

/-- A CORE that is not HALTED may be given another such run state: its halt record stays empty. -/
theorem inv_setRun {s : State} (hs : s.Inv) (hrun : s.run ≠ .halted) {r : RunState} (hr : r ≠ .halted) :
    State.Inv { s with run := r } := by
  obtain ⟨hmem, hfl, hpc, ⟨-, hempty⟩ | ⟨hhalt, -⟩⟩ := hs
  · exact ⟨hmem, hfl, hpc, .inl ⟨hr, hempty⟩⟩
  · exact absurd hhalt hrun

theorem heldReset_inv : State.heldReset.Inv :=
  inv_setRun resetMeetsInvariant (by decide) (by decide)

/-- Settles O50: a load write stores inside memory, and reset and release leave a CORE with an empty halt record. -/
theorem hostActionKeepsInvariant : Obligations.HostActionKeepsInvariant := by
  unfold Obligations.HostActionKeepsInvariant
  intro s t a hs h
  cases a with
  | assertReset =>
    cases h
    exact heldReset_inv
  | load addr data =>
    simp only [hostAct] at h
    split at h <;> cases h
    obtain ⟨hmem, hfl, hpc, hrecord⟩ := hs
    exact ⟨Memory.wf_write hmem addr.isLt data, hfl, hpc, hrecord⟩
  | release =>
    simp only [hostAct] at h
    split at h <;> cases h
    next hheld => exact inv_setRun hs (by simp [hheld]) (by decide)

/-- Settles O47: the eight registers are compared one by one, the rest is the literal of the reset state. -/
theorem resetStateValues : Obligations.ResetStateValues := by
  unfold Obligations.ResetStateValues
  exact ⟨by decide, rfl, rfl, rfl, rfl, rfl, fun _ => rfl, rfl⟩

/-- A launch of an image that fits is the reset state released, with the image stored from address 0 on. -/
theorem launch_eq {image : List Byte} (h : image.length ≤ 256) (s : State) :
    launch image s = .next (State.reset.setMem (Memory.writeBytes [] 0 image)) := by
  have hload : loadImage image State.heldReset =
      .next (State.heldReset.setMem (Memory.writeBytes [] 0 image)) := by
    rw [loadImage, if_neg (Nat.not_lt.mpr h), loadFrom_eq image 0 State.heldReset rfl (by omega)]
    rfl
  calc launch image s
      = Result.andThen (loadImage image State.heldReset) (hostAct .release) := rfl
    _ = hostAct .release (State.heldReset.setMem (Memory.writeBytes [] 0 image)) := by rw [hload, andThen_next]
    _ = .next (State.reset.setMem (Memory.writeBytes [] 0 image)) := hostAct_release_held rfl

/-- Settles O51: a launch stores the image in empty memory and changes nothing else of the reset state. -/
theorem launchLoadsImage : Obligations.LaunchLoadsImage := by
  unfold Obligations.LaunchLoadsImage
  intro image s hfit
  obtain ⟨hregs, hpc, hfl, hrun, hcause, hinfo, -, hevents⟩ := resetStateValues
  have hread := Memory.read_writeBytes image Memory.wf_nil 0 (by omega)
  refine ⟨_, launch_eq hfit s, hrun, fun k hk => ?image, fun k hk => ?rest, hregs, hpc, hfl, hcause, hinfo, hevents⟩
  case image =>
    rw [State.setMem_mem, hread, dif_pos ⟨Nat.zero_le k, hk⟩]
    rfl
  case rest =>
    rw [State.setMem_mem, hread, dif_neg fun h => Nat.not_lt.mpr hk h.2]
    rfl

/-- While the CORE is not held, the assertion of reset is the only host action that is admitted (R42, D17). -/
theorem hostAct_not_held {s : State} (h : s.run ≠ .held) :
    (∀ addr data : Byte, hostAct (.load addr data) s = .refused .loadWhileReleased) ∧
    hostAct .release s = .refused .releaseWhileReleased :=
  ⟨fun _ _ => if_neg h, if_neg h⟩

/-- Settles O52: the length of an image is checked before its first load write, the hold before each action. -/
theorem hostActionsOutsideContractRefused : Obligations.HostActionsOutsideContractRefused := by
  unfold Obligations.HostActionsOutsideContractRefused
  refine ⟨fun image s hlong => ?image, fun s addr data hrun => ?notHeld⟩
  case image =>
    have hload : loadImage image State.heldReset = .refused .imageTooLong := if_pos hlong
    calc launch image s
        = Result.andThen (loadImage image State.heldReset) (hostAct .release) := rfl
      _ = .refused .imageTooLong := by rw [hload]; rfl
  case notHeld =>
    obtain ⟨hload, hrelease⟩ := hostAct_not_held hrun
    exact ⟨hload addr data, hrelease⟩

/-- Settles O53: a HALTED CORE steps to itself, and it is not held, so only the assertion of reset is admitted. -/
theorem onlyResetLeavesHalted : Obligations.OnlyResetLeavesHalted := by
  unfold Obligations.OnlyResetLeavesHalted
  refine fun s t hhalt => ⟨fun h => ?step, fun a h => ?host⟩
  case step =>
    cases (step_halted hhalt).symm.trans h
    exact hhalt
  case host =>
    obtain ⟨hload, hrelease⟩ := hostAct_not_held (s := s) (by simp [hhalt])
    cases a with
    | assertReset =>
      cases h
      exact ⟨rfl, rfl⟩
    | load addr data => cases (hload addr data).symm.trans h
    | release => cases hrelease.symm.trans h

end Sys2Proof.Proofs
end

section
/-! The obligations about the step: which instruction it runs, and the stops of a fetch and of the operand check (spec
40_dispatch.md R100 to R111; 60_exceptions.md R184). -/

namespace Sys2Proof.Proofs

open Sys2Proof.Machine

theorem encode_length (i : Instr) : (encode i).length = i.length := by
  cases i <;> rfl

theorem opcode_length_le (o : Opcode) : o.length ≤ 3 := by
  cases o <;> decide

/-- Where an instruction's bytes stand at PC, the bytes fetched decode to it. -/
theorem decode_codeBytes_of_standsAtPc {s : State} {i : Instr} (h : StandsAtPc s i) :
    ∃ rest, decode s.codeBytes = .ok (i, rest) := by
  obtain ⟨fit, hbytes⟩ := h
  have hle : (encode i).length ≤ 3 := encode_length i ▸ opcode_length_le i.opcode
  exact ⟨_, codeBytes_of_bytes hle fit hbytes ▸ decode_encode_append i _⟩

/-- Where the bytes fetched decode to an instruction, its bytes stand at PC. -/
theorem standsAtPc_of_decode_codeBytes {s : State} {i : Instr} {rest : List Byte}
    (h : decode s.codeBytes = .ok (i, rest)) (fit : s.pc.toNat + i.length ≤ 256) : StandsAtPc s i := by
  have hbytes : s.codeBytes = encode i ++ rest := eq_encode_append_of_decode h
  refine ⟨(encode_length i).symm ▸ fit, fun k hk => ?_⟩
  have hk' : k < s.codeBytes.length := by rw [hbytes, List.length_append]; omega
  calc s.mem.read (s.pc.toNat + k) = s.codeBytes[k] := (codeBytes_getElem s k hk').symm
    _ = (encode i ++ rest)[k]'(hbytes ▸ hk') := by simp only [hbytes]
    _ = (encode i)[k] := List.getElem_append_left hk

/-- Where an opcode stands at PC with room for its operand bytes, an instruction of it stands there. -/
theorem exists_standsAtPc_of_opcode {s : State} {o : Opcode} (ho : o.byte = s.mem.read s.pc.toNat)
    (fit : s.pc.toNat + o.length ≤ 256) : ∃ i : Instr, i.opcode = o ∧ StandsAtPc s i := by
  have hlen : o.length ≤ 3 := opcode_length_le o
  simp only [Opcode.length] at hlen fit
  have hcons := codeBytes_cons s (by omega)
  rcases decodeOperands_cases o ((List.range' (s.pc.toNat + 1) (min 2 (255 - s.pc.toNat))).map s.mem.read) with
    ⟨hshort, -⟩ | ⟨-, i, rfl, hoperands⟩
  · simp only [List.length_map, List.length_range'] at hshort
    omega
  · have hdec := hcons ▸ (decode_known (opcodeOf_eq_some.mpr ho) _).trans hoperands
    exact ⟨i, rfl, standsAtPc_of_decode_codeBytes hdec fit⟩

theorem step_of_standsAtPc {s : State} {i : Instr} (hrun : s.run = .running) (h : StandsAtPc s i) :
    step s = exec i s := by
  obtain ⟨rest, hdec⟩ := decode_codeBytes_of_standsAtPc h
  exact step_decoded hrun hdec

/-- Settles O7: the bytes fetched begin with the instruction's encoding, which decodes to it whatever follows. -/
theorem stepRunsDecodedInstruction : Obligations.StepRunsDecodedInstruction := by
  unfold Obligations.StepRunsDecodedInstruction
  exact fun _ _ => step_of_standsAtPc

/-- Settles O8: a run state that is not RUNNING is the hold or HALTED. -/
theorem noStepUnlessRunning : Obligations.NoStepUnlessRunning := by
  unfold Obligations.NoStepUnlessRunning
  intro s hrun
  rcases hr : s.run with _ | _ | _
  · exact step_held hr
  · exact absurd hr hrun
  · exact step_halted hr

/-- Settles O9: a step leaves a HALTED state, so by induction any number of steps does. -/
theorem haltedStateIsFinal : Obligations.HaltedStateIsFinal := by
  unfold Obligations.HaltedStateIsFinal
  exact fun n _ hhalt => run_of_step_self (M := Sys2Proof.core) (step_halted hhalt) n

theorem validReg_iff {r : Byte} : validReg r = true ↔ r.toNat < 8 := decide_eq_true_iff

/-- A well-formed instruction names registers only. -/
theorem regOperand_lt_of_wf {i : Instr} (h : i.wf = true) : ∀ r ∈ i.regOperands, r.toNat < 8 :=
  fun r hr => validReg_iff.mp (List.all_eq_true.mp h r hr)

/-- An instruction that is not well formed has a first register operand that names no register. -/
theorem exists_find?_invalid_of_not_wf {i : Instr} (h : ¬ i.wf = true) :
    ∃ r, i.regOperands.find? (fun x => !validReg x) = some r := by
  refine Option.ne_none_iff_exists'.mp fun hnone => h (List.all_eq_true.mpr fun r hr => ?_)
  simpa using List.find?_eq_none.mp hnone r hr

/-- Every execution answers a next state: the instruction's own, or the stop of the operand check. -/
theorem exec_exists_next (i : Instr) (s : State) : ∃ t : State, exec i s = .next t := by
  by_cases hwf : i.wf = true
  case neg =>
    obtain ⟨r, hr⟩ := exists_find?_invalid_of_not_wf hwf
    exact ⟨_, exec_invalid s i r hr⟩
  case pos =>
    have hv := regOperand_lt_of_wf hwf
    cases i <;> simp only [Instr.regOperands, List.mem_cons, List.not_mem_nil, or_false, forall_eq_or_imp,
      forall_eq] at hv
    case ldi a imm => exact ⟨_, exec_ldi s hv imm⟩
    case prn a => exact ⟨_, exec_prn s hv⟩
    case hlt => exact ⟨_, exec_hlt s⟩
    case add a b => exact ⟨_, exec_add s hv.1 hv.2⟩
    case mul a b => exact ⟨_, exec_mul s hv.1 hv.2⟩
    case push a => exact ⟨_, exec_push s hv⟩
    case pop a => exact ⟨_, exec_pop s hv⟩
    case call a =>
      rcases Nat.lt_or_ge (s.pc.toNat + 2) 256 with hp | hp
      · exact ⟨_, exec_call s hv hp⟩
      · exact ⟨_, exec_call_overflow s hv hp⟩
    case ret => exact ⟨_, exec_ret s⟩
    case cmp a b => exact ⟨_, exec_cmp s hv.1 hv.2⟩
    case jmp a => exact ⟨_, exec_jmp s hv⟩
    case jeq a => exact ⟨_, exec_jeq s hv⟩
    case jne a => exact ⟨_, exec_jne s hv⟩

/-- Settles O10: a step leaves the state, executes an instruction, or takes a stop, and each is a next state. -/
theorem everyStepHasANextState : Obligations.EveryStepHasANextState := by
  unfold Obligations.EveryStepHasANextState
  refine ⟨exec_exists_next, fun s => ?step⟩
  case step =>
    rcases step_cases s with ⟨-, hself⟩ | ⟨-, i, -, -, -, -, hexec⟩ | ⟨-, -, hstop⟩ | ⟨-, -, -, hstop⟩ |
      ⟨-, -, -, hstop⟩
    · exact ⟨_, hself⟩
    · obtain ⟨t, ht⟩ := exec_exists_next i s
      exact ⟨t, hexec.trans ht⟩
    all_goals exact ⟨_, hstop⟩

/-- Settles O11: the opcode is looked up before any operand byte is looked for, and the lookup of a byte that is an
opcode's encoding answers that opcode. -/
theorem fetchStopsInPriorityOrder : Obligations.FetchStopsInPriorityOrder := by
  unfold Obligations.FetchStopsInPriorityOrder
  refine fun s hrun => ⟨fun hp => ?pcOut, fun hp hno => ?unknown, fun o hp ho hover => ?operandOut⟩
  case pcOut => exact step_pc_out hrun hp
  case unknown => exact ⟨_, step_unknown hrun hp (opcodeOf_eq_none.mpr hno), rfl, rfl⟩
  case operandOut => exact step_operand_out hrun hp (opcodeOf_eq_some.mpr ho) hover

/-- R89's ranges are what the 13 opcode bytes of R84 leave of 0 to 255. -/
theorem unassigned_iff (b : Byte) : Unassigned b ↔ ∀ o : Opcode, o.byte ≠ b := by
  constructor
  · rintro h o rfl
    revert h
    cases o <;> decide
  · intro h
    have hne (o : Opcode) : b.toNat ≠ o.byte.toNat := fun he => h o (BitVec.eq_of_toNat_eq he.symm)
    obtain ⟨_, _, _, _, _, _, _, _, _, _, _, _, _⟩ :
        b.toNat ≠ 0x82 ∧ b.toNat ≠ 0x47 ∧ b.toNat ≠ 0x01 ∧ b.toNat ≠ 0xA0 ∧ b.toNat ≠ 0xA2 ∧ b.toNat ≠ 0x45 ∧
        b.toNat ≠ 0x46 ∧ b.toNat ≠ 0x50 ∧ b.toNat ≠ 0x11 ∧ b.toNat ≠ 0xA7 ∧ b.toNat ≠ 0x54 ∧ b.toNat ≠ 0x55 ∧
        b.toNat ≠ 0x56 :=
      ⟨hne .ldi, hne .prn, hne .hlt, hne .add, hne .mul, hne .push, hne .pop, hne .call, hne .ret, hne .cmp,
        hne .jmp, hne .jeq, hne .jne⟩
    unfold Unassigned
    omega

/-- Settles O12: the listed ranges hold the bytes that the lookup knows no opcode for, which take the unknown-opcode
stop. -/
theorem unassignedOpcodeStops : Obligations.UnassignedOpcodeStops := by
  unfold Obligations.UnassignedOpcodeStops
  refine ⟨unassigned_iff, fun s hrun hp hb => ?stop⟩
  case stop =>
    have hno := opcodeOf_eq_none.mpr ((unassigned_iff _).mp hb)
    exact ⟨_, step_unknown hrun hp hno, rfl, rfl, zext9_toNat _, rfl, rfl, rfl, fun _ _ => rfl, fun _ => rfl⟩

/-- A first register operand of 8 or more stops the instruction, whatever the second one is. -/
theorem exec_first_invalid {i : Instr} {a : Byte} {bs : List Byte} (hi : i.regOperands = a :: bs) (ha : 8 ≤ a.toNat)
    (s : State) : exec i s = .next (s.stop .registerFault (zext9 a)) := by
  have hbad : validReg a = false := decide_eq_false (Nat.not_lt.mpr ha)
  exact exec_invalid s i a (by simp [hi, hbad])

/-- A second register operand of 8 or more stops the instruction where the first names a register. -/
theorem exec_second_invalid {i : Instr} {a b : Byte} (hi : i.regOperands = [a, b]) (ha : a.toNat < 8)
    (hb : 8 ≤ b.toNat) (s : State) : exec i s = .next (s.stop .registerFault (zext9 b)) := by
  have hgood : validReg a = true := validReg_iff.mpr ha
  have hbad : validReg b = false := decide_eq_false (Nat.not_lt.mpr hb)
  exact exec_invalid s i b (by simp [hi, hgood, hbad])

/-- Settles O13: the operand `a` is the first register operand of each of the 11 instructions, `b` the second of
three; the imm byte of LDI is no register operand. -/
theorem registerOperandCheckStops : Obligations.RegisterOperandCheckStops := by
  unfold Obligations.RegisterOperandCheckStops
  refine fun s a b => ⟨fun ha i hi => ?first, fun ha hb i hi => ?second⟩
  case first =>
    obtain ⟨bs, hbs⟩ : ∃ bs, i.regOperands = a :: bs := by
      simp only [List.mem_cons, List.not_mem_nil, or_false] at hi
      rcases hi with rfl | rfl | rfl | rfl | rfl | rfl | rfl | rfl | rfl | rfl | rfl <;> exact ⟨_, rfl⟩
    exact exec_first_invalid hbs ha s
  case second =>
    have hab : i.regOperands = [a, b] := by
      simp only [List.mem_cons, List.not_mem_nil, or_false] at hi
      rcases hi with rfl | rfl | rfl <;> rfl
    exact exec_second_invalid hab ha hb s

end Sys2Proof.Proofs
end

section
/-! The obligations about what each instruction does and its frame (spec 40_dispatch.md R110; 41_register_output.md;
42_alu.md; 43_stack.md; 44_subroutine.md; 45_compare_branch.md). -/

namespace Sys2Proof.Proofs

open Sys2Proof.Machine

/-- A write to a register keeps every other one. -/
theorem keepsRegs_setReg (s : State) (i : RegIdx) (v : Byte) : KeepsRegs s (s.setReg i v) [i] :=
  fun _ hr => State.reg_setReg_other s v fun h => hr (List.mem_singleton.mpr h)

/-- Settles O14: the immediate is written as it is, and then PC advances. -/
theorem ldiLoadsImmediate : Obligations.LdiLoadsImmediate := by
  unfold Obligations.LdiLoadsImmediate
  exact fun s a imm ha => ⟨_, exec_ldi s ha imm, State.reg_setReg_same s _ imm, rfl, keepsRegs_setReg s _ imm, rfl, rfl,
    ⟨rfl, rfl, rfl⟩, fun _ => rfl⟩

/-- Settles O15: an event is appended, and then PC advances. -/
theorem prnEmitsRegister : Obligations.PrnEmitsRegister := by
  unfold Obligations.PrnEmitsRegister
  exact fun s a ha => ⟨_, _, exec_prn s ha, rfl, rfl, rfl, rfl, rfl, fun _ _ => rfl, rfl, ⟨rfl, rfl, rfl⟩,
    fun _ => rfl⟩

/-- What ADD and MUL do: a number cut to 8 bits is written to regA, a marker is appended, and PC advances by 3. -/
theorem aluEffect_of_next {r : Result} {s : State} {a : RegIdx} {n : Nat} {e : Event}
    (h : r = .next (((s.setReg a (BitVec.ofNat 8 n)).emit e).advance 3)) :
    ∃ t : State, r = .next t ∧ (t.reg a).toNat = n % 256 ∧ t.events = s.events ++ [e] ∧ t.pc = s.pc + 3 ∧
      KeepsRegs s t [a] ∧ t.fl = s.fl ∧ KeepsRunning s t ∧ KeepsMemory s t :=
  ⟨_, h, toNat_reg_setReg_ofNat s a n, rfl, rfl, keepsRegs_setReg s a _, rfl, ⟨rfl, rfl, rfl⟩, fun _ => rfl⟩

/-- Settles O16: the operands of the sum are those of the state before the write. -/
theorem addWritesSum : Obligations.AddWritesSum := by
  unfold Obligations.AddWritesSum
  exact fun s _ _ ha hb => aluEffect_of_next (exec_add s ha hb)

/-- Settles O17: the operands of the product are those of the state before the write. -/
theorem mulWritesProduct : Obligations.MulWritesProduct := by
  unfold Obligations.MulWritesProduct
  exact fun s _ _ ha hb => aluEffect_of_next (exec_mul s ha hb)

/-! ## The stack -/

/-- The state after the PUSH mechanics of R140 with the byte `v`, which PUSH and CALL share (`exec_push_eq`,
`exec_call_eq`): SP decremented, and `v` stored at the new SP. -/
def pushed (s : State) (v : Byte) : State := s.decSp.setMem (s.mem.write (pushAddress s) v)

theorem toNat_pushAddress (s : State) : pushAddress s = (s.sp.toNat + 255) % 256 := toNat_sp_decSp s

theorem read_pushed {s : State} (hm : s.mem.wf) (v : Byte) : (pushed s v).mem.read (pushAddress s) = v := by
  rw [pushed, State.setMem_mem, Memory.read_write hm.1, if_pos rfl]

theorem keepsMemoryBut_pushed {s : State} (hm : s.mem.wf) (v : Byte) :
    KeepsMemoryBut s (pushed s v) (pushAddress s) := by
  intro x hx
  rw [pushed, State.setMem_mem, Memory.read_write hm.1, if_neg hx]

theorem keepsRegs_decSp (s : State) : KeepsRegs s s.decSp [7] := keepsRegs_setReg s 7 _

/-- A register as PUSH and CALL read it, after the decrement of SP: R7 is the decremented SP (D6). -/
theorem reg_decSp_operand (s : State) {a : Byte} (ha : a.toNat < 8) :
    s.decSp.reg ⟨a.toNat, ha⟩ = if a.toNat = 7 then s.decSp.sp else s.reg ⟨a.toNat, ha⟩ := by
  by_cases h7 : a.toNat = 7
  · have hidx : (⟨a.toNat, ha⟩ : RegIdx) = 7 := Fin.ext h7
    rw [if_pos h7, hidx, State.sp_eq]
  · rw [if_neg h7, reg_decSp_of_ne s ha h7]

theorem exec_push_eq (s : State) {a : Byte} (ha : a.toNat < 8) :
    exec (.push a) s = .next ((pushed s (s.decSp.reg ⟨a.toNat, ha⟩)).advance 2) := by
  rw [exec_push s ha, pushed, pushAddress, sp_decSp]

theorem exec_call_eq (s : State) {a : Byte} (ha : a.toNat < 8) (hp : s.pc.toNat + 2 < 256) :
    exec (.call a) s = .next ((pushed s (BitVec.ofNat 8 (s.pc.toNat + 2))).setPc
      (zext9 (s.decSp.reg ⟨a.toNat, ha⟩))) := by
  rw [exec_call s ha hp, pushed, pushAddress, sp_decSp]

/-- Settles O18: PUSH is the PUSH mechanics with the register as it is after the decrement, and then PC advances. -/
theorem pushStoresRegister : Obligations.PushStoresRegister := by
  unfold Obligations.PushStoresRegister
  exact fun s a ha hm => ⟨_, exec_push_eq s ha, toNat_sp_decSp s, toNat_pushAddress s,
    (read_pushed hm _).trans (reg_decSp_operand s ha), keepsMemoryBut_pushed hm _, rfl, keepsRegs_decSp s, rfl, rfl,
    ⟨rfl, rfl, rfl⟩⟩

/-- Settles O20: CALL is the PUSH mechanics with the address after it, and then PC takes the register as it is after
the decrement. -/
theorem callPushesAndJumps : Obligations.CallPushesAndJumps := by
  unfold Obligations.CallPushesAndJumps
  refine fun s a ha hm hp => ⟨_, exec_call_eq s ha hp, toNat_sp_decSp s, toNat_pushAddress s, ?stored, ?target,
    keepsMemoryBut_pushed hm _, keepsRegs_decSp s, rfl, rfl, ⟨rfl, rfl, rfl⟩⟩
  case stored => rw [State.setPc_mem, read_pushed hm, BitVec.toNat_ofNat, Nat.mod_eq_of_lt hp]
  case target => rw [State.setPc_pc, zext9_toNat, reg_decSp_operand, apply_ite BitVec.toNat, toNat_sp_decSp]

/-- Settles O21: the check of the return address comes before the push. -/
theorem callReturnAddressMustFit : Obligations.CallReturnAddressMustFit := by
  unfold Obligations.CallReturnAddressMustFit
  exact fun s _ ha hp => exec_call_overflow s ha hp

/-- Settles O19: POP writes the register before it increments SP, so that a register other than R7 keeps the byte
read and R7 ends as the byte plus 1 (D6). -/
theorem popLoadsRegister : Obligations.PopLoadsRegister := by
  unfold Obligations.PopLoadsRegister
  refine fun s a ha => ⟨_, exec_pop s ha, fun h7 => ⟨?loaded, ?sp⟩, fun h7 => ?spLoaded, rfl, fun r hr => ?regs, rfl,
    rfl, ⟨rfl, rfl, rfl⟩, fun _ => rfl⟩
  case loaded =>
    have hne : (⟨a.toNat, ha⟩ : RegIdx) ≠ 7 := fun h => h7 (congrArg Fin.val h)
    rw [State.reg_advance, State.reg_incSp, if_neg hne, State.reg_setReg_same]
  case sp =>
    have hsp := toNat_sp_incSp (s.setReg ⟨a.toNat, ha⟩ (s.mem.read s.sp.toNat))
    rwa [sp_setReg_of_ne s ha h7] at hsp
  case spLoaded =>
    have hidx : (⟨a.toNat, ha⟩ : RegIdx) = 7 := Fin.ext h7
    have hsp := toNat_sp_incSp (s.setReg ⟨a.toNat, ha⟩ (s.mem.read s.sp.toNat))
    rwa [State.sp_eq (State.setReg s _ _), hidx, State.reg_setReg_same, ← hidx] at hsp
  case regs =>
    obtain ⟨hra, hr7⟩ : r ≠ ⟨a.toNat, ha⟩ ∧ r ≠ 7 := by simpa using hr
    rw [State.reg_advance, State.reg_incSp, if_neg hr7, State.reg_setReg_other s _ hra]

/-! ## CMP and the jumps -/

theorem compareFlags_of_eq {a b : Byte} (h : a.toNat = b.toNat) : compareFlags a b = 0x01 := if_pos h

theorem compareFlags_of_gt {a b : Byte} (h : a.toNat > b.toNat) : compareFlags a b = 0x02 := by
  rw [compareFlags, if_neg (by omega), if_pos h]

theorem compareFlags_of_lt {a b : Byte} (h : a.toNat < b.toNat) : compareFlags a b = 0x00 := by
  rw [compareFlags, if_neg (by omega), if_neg (by omega)]

/-- Settles O23: CMP writes the whole FL byte, one value for each outcome of the comparison, and PC advances. -/
theorem cmpWritesFlags : Obligations.CmpWritesFlags := by
  unfold Obligations.CmpWritesFlags
  exact fun s a b ha hb => ⟨_, exec_cmp s ha hb, compareFlags_of_eq, compareFlags_of_gt, compareFlags_of_lt, rfl,
    fun _ _ => rfl, rfl, ⟨rfl, rfl, rfl⟩, fun _ => rfl⟩

/-- The state after a jump to the value `v`, or after the two bytes of a jump not taken: what JMP, JEQ and JNE answer
(`exec_jmp_eq`, `exec_jeq_eq`, `exec_jne_eq`). -/
def branch (s : State) (taken : Bool) (v : Byte) : State := if taken then s.setPc (zext9 v) else s.advance 2

theorem pc_branch_taken {s : State} {taken : Bool} (h : taken = true) (v : Byte) :
    (branch s taken v).pc.toNat = v.toNat := by
  rw [branch, if_pos h, State.setPc_pc, zext9_toNat]

theorem pc_branch_not_taken {s : State} {taken : Bool} (h : taken = false) (v : Byte) :
    (branch s taken v).pc = s.pc + 2 := by
  subst h
  rfl

/-- A jump writes nothing but PC. -/
theorem branch_frame (s : State) (taken : Bool) (v : Byte) :
    KeepsRegs s (branch s taken v) [] ∧ (branch s taken v).fl = s.fl ∧ (branch s taken v).events = s.events ∧
      KeepsRunning s (branch s taken v) ∧ KeepsMemory s (branch s taken v) := by
  cases taken <;> exact ⟨fun _ _ => rfl, rfl, rfl, ⟨rfl, rfl, rfl⟩, fun _ => rfl⟩

theorem exec_jmp_eq (s : State) {a : Byte} (ha : a.toNat < 8) :
    exec (.jmp a) s = .next (branch s true (s.reg ⟨a.toNat, ha⟩)) := exec_jmp s ha

theorem exec_jeq_eq (s : State) {a : Byte} (ha : a.toNat < 8) :
    exec (.jeq a) s = .next (branch s s.flagE (s.reg ⟨a.toNat, ha⟩)) := exec_jeq s ha

theorem exec_jne_eq (s : State) {a : Byte} (ha : a.toNat < 8) :
    exec (.jne a) s = .next (branch s (s.fl == 0x00) (s.reg ⟨a.toNat, ha⟩)) := exec_jne s ha

/-- Settles O24: JMP is the jump that is always taken. -/
theorem jmpJumps : Obligations.JmpJumps := by
  unfold Obligations.JmpJumps
  exact fun s _ ha => ⟨_, exec_jmp_eq s ha, pc_branch_taken rfl _, branch_frame s true _⟩

/-- Settles O25: JEQ is the jump taken on bit 0 of FL. -/
theorem jeqJumpsOnEqual : Obligations.JeqJumpsOnEqual := by
  unfold Obligations.JeqJumpsOnEqual
  exact fun s _ ha => ⟨_, exec_jeq_eq s ha, fun h => pc_branch_taken h _, fun h => pc_branch_not_taken h _,
    branch_frame s _ _⟩

/-- Settles O26: JNE is the jump taken where the whole FL byte is 0. -/
theorem jneJumpsOnNoFlag : Obligations.JneJumpsOnNoFlag := by
  unfold Obligations.JneJumpsOnNoFlag
  exact fun s _ ha => ⟨_, exec_jne_eq s ha, fun h => pc_branch_taken (beq_iff_eq.mpr h) _,
    fun h => pc_branch_not_taken (beq_eq_false_iff_ne.mpr h) _, branch_frame s _ _⟩

/-- Settles O27: HLT is a stop, which keeps PC. -/
theorem hltHalts : Obligations.HltHalts := by
  unfold Obligations.HltHalts
  exact fun s => ⟨_, exec_hlt s, rfl, rfl, rfl, rfl, fun _ _ => rfl, rfl, rfl, fun _ => rfl⟩

/-! ## Sequences of the source's section 8 -/

/-- Settles O39: PRN reads the register that LDI wrote, and LDI emits nothing. -/
theorem ldiThenPrnEmitsImmediate : Obligations.LdiThenPrnEmitsImmediate := by
  unfold Obligations.LdiThenPrnEmitsImmediate
  refine fun s a imm ha => ⟨_, _, exec_ldi s ha imm, exec_prn _ ha, ?_⟩
  rw [State.advance_events, State.emit_events, State.reg_advance, State.reg_setReg_same]
  rfl

theorem reg_setReg_self (s : State) (i r : RegIdx) : (s.setReg i (s.reg i)).reg r = s.reg r := by
  rw [State.reg_setReg]
  split
  · next h => rw [h]
  · rfl

theorem reg_incSp_decSp (s : State) (r : RegIdx) : s.decSp.incSp.reg r = s.reg r := by
  rw [State.reg_incSp, State.reg_decSp, State.reg_decSp, if_pos rfl, sub_add_cancel]
  by_cases h : r = 7
  · rw [if_pos h, h]
  · rw [if_neg h, if_neg h]

/-- Settles O40: POP first loads what PUSH stored, the register's value after the decrement, so it leaves every
register as the decrement left it, R7 among them; then its increment undoes the decrement. -/
theorem pushThenPopRestores : Obligations.PushThenPopRestores := by
  unfold Obligations.PushThenPopRestores
  refine fun s a ha hm => ⟨_, _, exec_push_eq s ha, exec_pop _ ha, fun r => ?regs⟩
  case regs =>
    have hload : ((pushed s (s.decSp.reg ⟨a.toNat, ha⟩)).advance 2).mem.read
        ((pushed s (s.decSp.reg ⟨a.toNat, ha⟩)).advance 2).sp.toNat = s.decSp.reg ⟨a.toNat, ha⟩ := read_pushed hm _
    have hself := reg_setReg_self s.decSp ⟨a.toNat, ha⟩
    rw [hload, State.reg_advance, ← reg_incSp_decSp s r, State.reg_incSp, State.reg_incSp, ← hself 7, ← hself r]
    rfl

/-- Settles O41: RET takes the return address that CALL stored, from the SP that CALL left. -/
theorem callThenRetReturns : Obligations.CallThenRetReturns := by
  unfold Obligations.CallThenRetReturns
  refine fun s u a ha hm hp => ⟨_, exec_call_eq s ha hp, fun hsp hret => ⟨_, exec_ret u, ?pc, ?sp⟩⟩
  case pc =>
    have hstored : u.mem.read u.sp.toNat = BitVec.ofNat 8 (s.pc.toNat + 2) := by
      rw [hret, hsp]
      exact read_pushed hm (BitVec.ofNat 8 (s.pc.toNat + 2))
    rw [State.setPc_pc, zext9_toNat, hstored, BitVec.toNat_ofNat, Nat.mod_eq_of_lt hp]
  case sp =>
    have husp : u.sp = s.sp - 1 := hsp.trans (sp_decSp s)
    calc (u.incSp.setPc _).sp = u.sp + 1 := sp_incSp u
      _ = s.sp := by rw [husp, sub_add_cancel]

/-- Settles O42: FL after CMP is 1, 2 or 0, of which JEQ takes only the first and JNE only the last. -/
theorem compareThenConditionalJump : Obligations.CompareThenConditionalJump := by
  unfold Obligations.CompareThenConditionalJump
  refine fun s a b c ha hb hc => ⟨_, _, _, exec_cmp s ha hb, exec_jeq_eq _ hc, exec_jne_eq _ hc, fun h => ?eq,
    fun h => ?gt, fun h => ?lt⟩
  case eq =>
    rw [compareFlags_of_eq h]
    exact ⟨pc_branch_taken (by simp [State.flagE]) _, pc_branch_not_taken rfl _⟩
  case gt =>
    rw [compareFlags_of_gt h]
    exact ⟨pc_branch_not_taken (by simp [State.flagE]) _, pc_branch_not_taken rfl _⟩
  case lt =>
    rw [compareFlags_of_lt h]
    exact ⟨pc_branch_not_taken (by simp [State.flagE]) _, pc_branch_taken rfl _⟩

end Sys2Proof.Proofs
end

section
/-! The obligations about memory (spec 20_memory.md R52 to R54, R64). -/

namespace Sys2Proof.Proofs

open Sys2Proof.Machine

theorem wf_foldl_write {m : Memory} (hm : m.wf) (ws : List (Byte × Byte)) :
    (ws.foldl (fun m w => m.write w.1.toNat w.2) m).wf := by
  induction ws generalizing m with
  | nil => exact hm
  | cons w ws ih => exact ih (Memory.wf_write hm w.1.isLt w.2)

/-- Settles O44: by induction on the list from its end, the last write is the one a read finds first. -/
theorem readReturnsLatestWrite : Obligations.ReadReturnsLatestWrite := by
  unfold Obligations.ReadReturnsLatestWrite
  intro m ws x hm
  induction ws using List.reverseRecOn with
  | nil => rfl
  | append_singleton ws w ih =>
    rw [List.foldl_append, List.foldl_cons, List.foldl_nil, Memory.read_write (wf_foldl_write hm ws).1,
      List.reverse_concat', List.find?_cons]
    by_cases hx : x = w.1.toNat
    · simp [hx]
    · rw [if_neg hx, ih, beq_false_of_ne (Ne.symm hx)]

/-- Settles O45: the primitives are their own bound check, and a write in canonical memory changes the one cell. -/
theorem memoryPrimitives : Obligations.MemoryPrimitives := by
  unfold Obligations.MemoryPrimitives
  refine fun s x v hm => ⟨fun hx k => ?read, fun hx => ⟨s.setMem (s.mem.write x v), ?write, ?stored, ?others, rfl⟩,
    fun hx => ⟨fun k => ?readOut, fun k => ?writeOut⟩⟩
  case read => exact if_neg (Nat.not_le.mpr hx)
  case write => exact if_neg (Nat.not_le.mpr hx)
  case stored => rw [State.setMem_mem, Memory.read_write hm.1, if_pos rfl]
  case others =>
    intro y hy
    rw [State.setMem_mem, Memory.read_write hm.1, if_neg hy]
  case readOut => exact if_pos hx
  case writeOut => exact if_pos hx

/-- An address that does not read as unlisted is listed with what it reads. -/
theorem mem_of_read_ne_unlisted {m : Memory} {a : Nat} (h : m.read a ≠ Memory.unlisted) : (a, m.read a) ∈ m := by
  induction m with
  | nil => exact absurd rfl h
  | cons c m ih =>
    by_cases ha : a = c.1
    · simp [Memory.read, ha]
    · simp only [Memory.read, if_neg ha] at h ⊢
      exact List.mem_cons_of_mem _ (ih h)

/-- The cells of a canonical memory are the addresses that do not read as unlisted, with what they read. -/
theorem mem_iff_read {m : Memory} (hm : m.wf) (c : Host.Cell) :
    c ∈ m ↔ m.read c.1 = c.2 ∧ c.2 ≠ Memory.unlisted := by
  constructor
  · exact fun hc => ⟨Memory.read_of_mem hm.1 hc, (hm.2 c hc).2⟩
  · rintro ⟨hread, hne⟩
    have hmem := mem_of_read_ne_unlisted (hread.trans_ne hne)
    rwa [hread] at hmem

/-- Settles O46: canonical memories that read alike list the same cells, and a list of strictly rising addresses is
determined by its members. -/
theorem equalReadsMeanEqualMemory : Obligations.EqualReadsMeanEqualMemory := by
  unfold Obligations.EqualReadsMeanEqualMemory
  intro m m' hm hm' hread
  have hirrefl : Std.Irrefl fun x y : Host.Cell => x.1 < y.1 := ⟨fun x => Nat.lt_irrefl x.1⟩
  have hantisymm : Std.Antisymm fun x y : Host.Cell => x.1 < y.1 := ⟨fun _ _ h h' => absurd h (Nat.lt_asymm h')⟩
  exact List.Pairwise.eq_of_mem_iff hm.1 hm'.1 fun c => by rw [mem_iff_read hm, mem_iff_read hm', hread]

end Sys2Proof.Proofs
end

section
/-! The obligations about every instruction and every step: what is written, what is emitted, and how a step halts
(spec 10_state.md R27, R41; 20_memory.md R55, R67; 40_dispatch.md R104; 60_exceptions.md R183; 70_reset_and_hazards.md
R210). -/

namespace Sys2Proof.Proofs

open Sys2Proof.Machine

/-! ## The default advance -/

/-- The instructions that never write PC with a target complete with the default advance by their length (R104). -/
theorem exec_advances {i : Instr} (hwf : i.wf = true)
    (hi : i.opcode ∈ [Opcode.ldi, .prn, .add, .mul, .push, .pop, .cmp]) (s : State) :
    ∃ t : State, exec i s = .next t ∧ t.run = s.run ∧ t.pc = s.pc + BitVec.ofNat 9 i.length := by
  have hv := regOperand_lt_of_wf hwf
  cases i <;> simp only [Instr.regOperands, List.mem_cons, List.not_mem_nil, or_false, forall_eq_or_imp,
    forall_eq] at hv
  case ldi a imm => exact ⟨_, exec_ldi s hv imm, rfl, rfl⟩
  case prn a => exact ⟨_, exec_prn s hv, rfl, rfl⟩
  case add a b => exact ⟨_, exec_add s hv.1 hv.2, rfl, rfl⟩
  case mul a b => exact ⟨_, exec_mul s hv.1 hv.2, rfl, rfl⟩
  case push a => exact ⟨_, exec_push s hv, rfl, rfl⟩
  case pop a => exact ⟨_, exec_pop s hv, rfl, rfl⟩
  case cmp a b => exact ⟨_, exec_cmp s hv.1 hv.2, rfl, rfl⟩
  case hlt | call | ret | jmp | jeq | jne => simp [Instr.opcode] at hi

/-- Settles O30: the bytes of the instruction end at 255 at the latest, so the 9-bit sum of PC and the length does not
wrap. -/
theorem defaultAdvanceNeverWraps : Obligations.DefaultAdvanceNeverWraps := by
  unfold Obligations.DefaultAdvanceNeverWraps
  intro s i hrun hat hwf hi
  obtain ⟨t, hexec, hkeep, hpc⟩ := exec_advances hwf hi s
  have fit : s.pc.toNat + i.length ≤ 256 := encode_length i ▸ hat.1
  exact ⟨t, (step_of_standsAtPc hrun hat).trans hexec, hkeep.trans hrun, by rw [hpc, toNat_add_ofNat_of_le fit]⟩

/-! ## What is written and what is emitted -/

/-- A step leaves FL, memory and the events, or executes an instruction of the opcode at PC, or reports the byte at PC
that is no opcode. -/
theorem step_effect_cases {s t : State} (h : step s = .next t) :
    (t.fl = s.fl ∧ t.mem = s.mem ∧ t.events = s.events) ∨
    (∃ i : Instr, i.opcode.byte = s.mem.read s.pc.toNat ∧ exec i s = .next t) ∨
    (Unassigned (s.mem.read s.pc.toNat) ∧ t.fl = s.fl ∧ t.mem = s.mem ∧
      t.events = s.events ++ [.unknown (s.mem.read s.pc.toNat)]) := by
  rcases step_cases s with ⟨-, hself⟩ | ⟨-, i, -, -, hi, -, hexec⟩ | ⟨-, -, hstop⟩ | ⟨-, -, hno, hstop⟩ |
    ⟨-, -, -, hstop⟩
  · cases hself.symm.trans h
    exact .inl ⟨rfl, rfl, rfl⟩
  · exact .inr (.inl ⟨i, byte_of_opcodeOf hi, hexec.symm.trans h⟩)
  · cases hstop.symm.trans h
    exact .inl ⟨rfl, rfl, rfl⟩
  · cases hstop.symm.trans h
    exact .inr (.inr ⟨(unassigned_iff _).mpr (opcodeOf_eq_none.mp hno), rfl, rfl, rfl⟩)
  · cases hstop.symm.trans h
    exact .inl ⟨rfl, rfl, rfl⟩

/-- What an execution can do to FL, memory and the events: a stop keeps all three. -/
theorem exec_effect_cases {i : Instr} {s t : State} (h : exec i s = .next t) :
    (t.fl = s.fl ∨ i.opcode = .cmp) ∧
    (t.mem = s.mem ∨ ((i.opcode = .push ∨ i.opcode = .call) ∧ ∃ v, t.mem = s.mem.write (pushAddress s) v)) ∧
    (t.events = s.events ∨ (i.opcode = .prn ∧ ∃ r, t.events = s.events ++ [.prn (s.reg r)]) ∨
      (i.opcode = .add ∧ t.events = s.events ++ [.diag 0xA0]) ∨
      (i.opcode = .mul ∧ t.events = s.events ++ [.diag 0xA2])) := by
  cases exec_cases h with
  | registerFault r hr ht => exact ht ▸ ⟨.inl rfl, .inl rfl, .inl rfl⟩
  | returnFault hi hp ht => exact ht ▸ ⟨.inl rfl, .inl rfl, .inl rfl⟩
  | halt hi ht => exact ht ▸ ⟨.inl rfl, .inl rfl, .inl rfl⟩
  | completes hrun hcause hinfo hfl hmem hevents => exact ⟨hfl.imp_right And.left, hmem, hevents⟩

theorem exec_fl_cases {i : Instr} {s t : State} (h : exec i s = .next t) : t.fl = s.fl ∨ i.opcode = .cmp :=
  (exec_effect_cases h).1

/-- Settles O33: of what an execution can do, only CMP writes FL, and a step that executes nothing keeps it. -/
theorem onlyCmpWritesFlags : Obligations.OnlyCmpWritesFlags := by
  unfold Obligations.OnlyCmpWritesFlags
  refine ⟨fun i s t hi h => (exec_fl_cases h).resolve_right hi, fun s t h hchanged => ?step⟩
  case step =>
    rcases step_effect_cases h with ⟨hfl, -⟩ | ⟨i, hbyte, hexec⟩ | ⟨-, hfl, -⟩
    · exact absurd hfl hchanged
    · rw [← hbyte, (exec_fl_cases hexec).resolve_left hchanged]
      rfl
    · exact absurd hfl hchanged

/-- Settles O34: a step keeps memory or executes one write to it, by PUSH or CALL, at the decremented SP; a write
changes what no other address reads. -/
theorem onlyPushAndCallStore : Obligations.OnlyPushAndCallStore := by
  unfold Obligations.OnlyPushAndCallStore
  intro s t hm h x hchanged
  have hne : t.mem ≠ s.mem := fun hkeep => hchanged (by rw [hkeep])
  rcases step_effect_cases h with ⟨-, hkeep, -⟩ | ⟨i, hbyte, hexec⟩ | ⟨-, -, hkeep, -⟩
  · exact absurd hkeep hne
  · obtain ⟨-, hmem, -⟩ := exec_effect_cases hexec
    obtain ⟨hop, v, hwrite⟩ := hmem.resolve_left hne
    refine ⟨by_contra fun hx => hchanged ?_, hop.imp (fun hi => ?_) fun hi => ?_⟩
    · rw [hwrite, Memory.read_write hm.1, if_neg hx]
    · rw [← hbyte, hi]; rfl
    · rw [← hbyte, hi]; rfl
  · exact absurd hkeep hne

/-- Settles O35: PRN, ADD and MUL emit one event each, and so does the report of a byte that is no opcode; nothing else
emits. -/
theorem stepEmitsAtMostOneEvent : Obligations.StepEmitsAtMostOneEvent := by
  unfold Obligations.StepEmitsAtMostOneEvent
  intro s t h
  rcases step_effect_cases h with ⟨-, -, hkeep⟩ | ⟨i, hbyte, hexec⟩ | ⟨hno, -, -, hreport⟩
  · exact .inl hkeep
  · obtain ⟨-, -, hevents⟩ := exec_effect_cases hexec
    rw [← hbyte]
    rcases hevents with hkeep | ⟨hi, r, hprn⟩ | ⟨hi, hdiag⟩ | ⟨hi, hdiag⟩
    · exact .inl hkeep
    · exact .inr ⟨_, hprn, .inl ⟨by rw [hi]; rfl, r, rfl⟩⟩
    · exact .inr ⟨_, hdiag, .inr (.inl ⟨by rw [hi]; rfl, rfl⟩)⟩
    · exact .inr ⟨_, hdiag, .inr (.inr (.inl ⟨by rw [hi]; rfl, rfl⟩))⟩
  · exact .inr ⟨_, hreport, .inr (.inr (.inr ⟨hno, rfl⟩))⟩

/-- Settles O36: the coding is read off each kind of event. -/
theorem eventCoding : Obligations.EventCoding := by
  unfold Obligations.EventCoding
  refine fun v => ⟨rfl, rfl, rfl, rfl, rfl, rfl, fun e => ?kind⟩
  case kind => cases e <;> simp [Event.kind]

/-! ## How a step halts -/

/-- An execution that halts a RUNNING CORE is a fault's stop, or HLT. -/
theorem exec_halts_cases {i : Instr} {s t : State} (hrun : s.run = .running) (h : exec i s = .next t)
    (hhalt : t.run = .halted) :
    (i.opcode = .hlt ∧ t = s.stop .hlt 0) ∨ ∃ c info, c ≠ HaltCause.hlt ∧ t = s.stop c info := by
  cases exec_cases h with
  | registerFault r hr ht => exact .inr ⟨_, _, by decide, ht⟩
  | returnFault hi hp ht => exact .inr ⟨_, _, by decide, ht⟩
  | halt hi ht => exact .inl ⟨by rw [hi]; rfl, ht⟩
  | completes hkeep => exact absurd (hkeep.symm.trans hhalt) (by simp [hrun])

/-- A step that halts a RUNNING CORE ran a HLT byte, or is a fault's stop, or reported a byte that is no opcode. -/
theorem step_halts_cases {s t : State} (hrun : s.run = .running) (h : step s = .next t) (hhalt : t.run = .halted) :
    (s.mem.read s.pc.toNat = Opcode.hlt.byte ∧ t = s.stop .hlt 0) ∨
    (∃ c info, c ≠ HaltCause.hlt ∧ t = s.stop c info) ∨
    ∃ op, t = (s.emit (.unknown op)).stop .unknownOpcode (zext9 op) := by
  rcases step_cases s with ⟨hnot, -⟩ | ⟨-, i, -, -, hi, -, hexec⟩ | ⟨-, -, hstop⟩ | ⟨-, -, -, hstop⟩ | ⟨-, -, -, hstop⟩
  · exact absurd hrun hnot
  · rcases exec_halts_cases hrun (hexec.symm.trans h) hhalt with ⟨hhlt, ht⟩ | hfault
    · exact .inl ⟨by rw [← byte_of_opcodeOf hi, hhlt], ht⟩
    · exact .inr (.inl hfault)
  · cases hstop.symm.trans h
    exact .inr (.inl ⟨_, _, by decide, rfl⟩)
  · cases hstop.symm.trans h
    exact .inr (.inr ⟨_, rfl⟩)
  · cases hstop.symm.trans h
    exact .inr (.inl ⟨_, _, by decide, rfl⟩)

/-- Settles O37: a step that halts with a fault's code is a stop of the state it began in; HLT and the unknown opcode
have other codes. -/
theorem faultsArePrecise : Obligations.FaultsArePrecise := by
  unfold Obligations.FaultsArePrecise
  rintro s t hrun h ⟨hhalt, hcode⟩
  rcases step_halts_cases hrun h hhalt with ⟨-, rfl⟩ | ⟨c, info, -, rfl⟩ | ⟨op, rfl⟩
  · exact absurd hcode (by rw [State.stop_hcause]; decide)
  · rfl
  · exact absurd hcode (by rw [State.stop_hcause]; decide)

/-- The codes of R181 tell HLT from every other cause. -/
theorem haltCause_eq_hlt {c : HaltCause} (h : c.code = HaltCause.hlt.code) : c = .hlt := by
  revert h
  cases c <;> decide

/-- Settles O38: of the ways a step halts, only HLT records its code, and HLT is a stop with information 0. -/
theorem normalCompletionOnlyByHlt : Obligations.NormalCompletionOnlyByHlt := by
  unfold Obligations.NormalCompletionOnlyByHlt
  rintro s t hrun h ⟨hhalt, hcode⟩
  rcases step_halts_cases hrun h hhalt with ⟨hbyte, rfl⟩ | ⟨c, info, hc, rfl⟩ | ⟨op, rfl⟩
  · exact ⟨hbyte, rfl, rfl, rfl⟩
  · exact absurd (haltCause_eq_hlt hcode) hc
  · exact absurd (haltCause_eq_hlt (c := .unknownOpcode) hcode) (by decide)

/-! ## Stored code is fetched -/

/-- A fetch reads memory as it stands: whatever stored the byte at an address of memory, every RUNNING state whose
memory holds it takes it there, as the opcode or as an operand byte. -/
theorem fetchSeesByte_of_read {u : State} {x : Nat} {b : Byte} (hrun : u.run = .running) (hx : x < 256)
    (hb : u.mem.read x = b) : FetchSeesByte u x b := by
  refine ⟨?opcode, fun i k hk hat hxk => ⟨?operand, step_of_standsAtPc hrun hat⟩⟩
  case opcode =>
    rintro rfl
    refine ⟨fun o ho fit => ?executes, fun o ho hover => ?operandOut, fun hno => ?unknown⟩
    case executes =>
      obtain ⟨i, hi, hat⟩ := exists_standsAtPc_of_opcode (ho.trans hb.symm) fit
      exact ⟨i, hi, hat, step_of_standsAtPc hrun hat⟩
    case operandOut => exact step_operand_out hrun hx (opcodeOf_eq_some.mpr (ho.trans hb.symm)) hover
    case unknown =>
      rw [← hb] at hno ⊢
      exact step_unknown hrun hx (opcodeOf_eq_none.mpr hno)
  case operand => rw [← hat.2 k hk, ← hxk, hb]

/-- Settles O43: the byte is in memory at the decremented SP, an address of memory, so every fetch there takes it. -/
theorem pushedCodeIsFetched : Obligations.PushedCodeIsFetched := by
  unfold Obligations.PushedCodeIsFetched
  intro s a ha hrun hm
  have hseen (u : State) (b : Byte) (hu : u.run = .running) (hb : u.mem.read (pushAddress s) = b) :
      FetchSeesByte u (pushAddress s) b := fetchSeesByte_of_read hu s.decSp.sp.isLt hb
  refine ⟨fun hat => ?push, fun hat hp => ?call⟩
  case push =>
    have hread := read_pushed hm (s.decSp.reg ⟨a.toNat, ha⟩)
    refine ⟨_, s.decSp.reg ⟨a.toNat, ha⟩, (step_of_standsAtPc hrun hat).trans (exec_push_eq s ha), hrun,
      toNat_add_ofNat_of_le hat.1, ?stored, hread, hseen _ _ hrun hread, fun u => hseen u _⟩
    case stored => rw [reg_decSp_operand, sp_decSp]
  case call =>
    have hread := read_pushed hm (BitVec.ofNat 8 (s.pc.toNat + 2))
    refine ⟨_, _, (step_of_standsAtPc hrun hat).trans (exec_call_eq s ha hp), hrun, ?target, ?stored, hread,
      hseen _ _ hrun hread, fun u => hseen u _⟩
    case target => rw [State.setPc_pc, zext9_toNat, reg_decSp_operand, apply_ite BitVec.toNat]
    case stored => rw [BitVec.toNat_ofNat, Nat.mod_eq_of_lt hp]

end Sys2Proof.Proofs
end
